-- ==== Sys2Proof/Word.lean ====
section
/-! DEFINITION. The word types of the machine: the byte (`XLEN`, rule R5), the flags register (`FL_WIDTH`, rule R16) and the
program counter (`PC_WIDTH`, rule R14). Every `Config` proves that its widths are theirs. -/

namespace Sys2Proof

/-- One byte, an integer in 0 to 255 (`XLEN` = 8; rules R5, R11, R30): the type of a register, of a Memory cell, of an
opcode, of an operand and of an emitted value. -/
abbrev Byte := BitVec 8

/-- The flags register `FL` (`FL_WIDTH`; rule R16). -/
abbrev FlByte := BitVec 8

/-- The program counter's 9 bits (`PC_WIDTH`; rule R14): it must hold 256, the one invalid address a run can reach. -/
abbrev PcWord := BitVec 9

end Sys2Proof
end

