-- ==== Sys2Proof/Config.lean ====
section
/-! DEFINITION. The implementation parameters of rule R4, ALL of them in ONE record (rule R4: "A model should keep them in one
configuration record"; U14, N1). The record's value, for both values of `EXT_CMPJ`, is `Config.build` in Machine/Build.lean;
every definition reads a parameter from there. The widths shape the types of Word.lean, so the record carries the proof that
the types have them. The machine has no free value: every step is a function of the state alone (rule R3), so this file holds
no opaque constant. -/

namespace Sys2Proof

/-- The thirteen handler selections: the nine base handlers of rule R55 and the four of extension `EXT_CMPJ` (rule R56). -/
inductive Mnemonic where
  | hlt | ret | push | pop | prn | call | jmp | jeq | jne | ldi | add | mul | cmp
  deriving DecidableEq, Repr

/-- Why the machine left Running (rules R18, R130, R131). -/
inductive Machine.Cause where
  /-- The HLT handler executed: the normal end. -/
  | hlt
  /-- The fetched opcode has no handler: the graceful halt. -/
  | unknownOpcode
  /-- Fatal: an address outside 0 to 255 at the fetch, or the stack pointer at one of its limits. -/
  | outOfBounds
  /-- Fatal: a register operand above 7. -/
  | invalidRegister
  /-- Fatal: an ALU operation other than ADD, MUL, CMP (no instruction stream raises it). -/
  | unsupportedOperation
  deriving DecidableEq, Repr

/-- One build of the machine: the table of rule R4, a field for each parameter. -/
structure Config where
  /-- `XLEN`: bits of a register and of a Memory cell. -/
  xlen : Nat
  /-- `NREG`: the number of registers; a register index is legal below it (rules R11, R12). -/
  nreg : Nat
  /-- `SP_INDEX`: the register that is the stack pointer (rule R13). -/
  spIndex : Nat
  /-- `MEM_SIZE`: the number of Memory cells; an address is valid below it (rules R30 to R33). -/
  memSize : Nat
  /-- `SP_RESET`: the stack pointer after reset. -/
  spReset : Byte
  /-- `PC_RESET`: the program counter after reset. -/
  pcReset : PcWord
  /-- `LOAD_BASE`: the address of the first program byte. -/
  loadBase : Nat
  /-- `PC_WIDTH`: bits of the program counter (rule R14; decision D5). -/
  pcWidth : Nat
  /-- `FL_WIDTH`: bits of the flags register (rule R16; decision D3). -/
  flWidth : Nat
  /-- Bit position of L, "less than", in `FL` (rule R16). -/
  flBitL : Nat
  /-- Bit position of G, "greater than", in `FL` (rule R16). -/
  flBitG : Nat
  /-- Bit position of E, "equal", in `FL` (rule R16). -/
  flBitE : Nat
  /-- `FL_RESET`: the flags register after reset. -/
  flReset : Byte
  /-- `EXT_CMPJ`: whether CMP, JMP, JEQ and JNE are in the dispatch table (rule R56; decision D1, left OPEN by the spec). -/
  extCmpj : Bool
  /-- The opcode byte of each handler (rules R55, R56). -/
  opcode : Mnemonic → Byte
  /-- The halt cause codes, `none` for a machine that has not halted (rule R131; decision D15). -/
  causeCode : Option Machine.Cause → Nat
  /-- `FETCH_BYTES`: the bytes read every cycle (rules R51, R72). -/
  fetchBytes : Nat
  /-- `SP_MIN`: the stack pointer is never decremented below it (rule R111). -/
  spMin : Byte
  /-- `SP_MAX`: the stack pointer is never incremented above it (rule R112). -/
  spMax : Byte
  /-- The byte type has `XLEN` bits. -/
  byte_width : Byte = BitVec xlen
  /-- The program counter's type has `PC_WIDTH` bits. -/
  pc_width : PcWord = BitVec pcWidth
  /-- The flags register's type has `FL_WIDTH` bits. -/
  fl_width : FlByte = BitVec flWidth

end Sys2Proof
end

