-- ==== Sys2Proof/Machine/Build.lean ====
section
/-! DEFINITION. The configuration's values: every parameter of rule R4, with the opcode bytes of rules R55 and R56 and the cause
codes of rule R131. This is the one place in which an audit changes them (U14, G1). -/

namespace Sys2Proof

/-- The thirteen opcode bytes (rules R55, R56). The document prints three of them (HLT, PRN, LDI); the spec supplies the
other ten from general knowledge (decision D2, G1; log entry 2, PRESUMED). -/
def opcodeByte : Mnemonic → Byte
  | .hlt => 0x01
  | .ret => 0x11
  | .push => 0x45
  | .pop => 0x46
  | .prn => 0x47
  | .call => 0x50
  | .jmp => 0x54
  | .jeq => 0x55
  | .jne => 0x56
  | .ldi => 0x82
  | .add => 0xA0
  | .mul => 0xA2
  | .cmp => 0xA7

/-- The numeric cause codes, 0 while Running (rule R131; decision D15). -/
def causeCode : Option Machine.Cause → Nat
  | none => 0
  | some .hlt => 1
  | some .unknownOpcode => 2
  | some .outOfBounds => 3
  | some .invalidRegister => 4
  | some .unsupportedOperation => 5

/-- The build with `EXT_CMPJ = ext` (rule R4): the two builds differ in nothing else, so the handlers, which both builds share,
read the other parameters from `Config.core`. -/
def Config.build (ext : Bool) : Config where
  xlen := 8
  nreg := 8
  spIndex := 7
  memSize := 256
  spReset := 0xF4
  pcReset := 0
  loadBase := 0
  pcWidth := 9
  flWidth := 8
  flBitL := 2
  flBitG := 1
  flBitE := 0
  flReset := 0x00
  extCmpj := ext
  opcode := opcodeByte
  causeCode := Sys2Proof.causeCode
  fetchBytes := 3
  spMin := 0x00
  spMax := 0xFF
  byte_width := rfl
  pc_width := rfl
  fl_width := rfl

/-- The build that `step` runs: `EXT_CMPJ = true`, the spec's default (rule R4, decision D1; log entry 1, DESIGN CHOICE). -/
def Config.core : Config := Config.build true

end Sys2Proof
end

