-- ==== Sys2Proof/Syntax.lean ====
section
/-! DEFINITION. The instructions: one constructor of `Instr` per row of spec/opcode_table.json. An operand is the whole
operand byte, as the handler receives it (rules R52, R57): an index of 8 to 255 is syntax the handler meets and answers with
InvalidRegister, so it is kept here and is not turned away by the decoder. -/

namespace Sys2Proof

/-- The instruction set: nine base instructions (rule R55) and the four of `EXT_CMPJ` (rule R56). `a` is `operand_a`, `b` is
`operand_b`, both register indices; `imm` is LDI's `operand_b`, an immediate. -/
inductive Instr where
  /-- HLT (rule R76). -/
  | hlt
  /-- RET (rule R121). -/
  | ret
  /-- PUSH Ra (rule R113). -/
  | push (a : Byte)
  /-- POP Ra (rule R114). -/
  | pop (a : Byte)
  /-- PRN Ra (rule R91). -/
  | prn (a : Byte)
  /-- CALL Ra (rule R120). -/
  | call (a : Byte)
  /-- JMP Ra (rule R122). -/
  | jmp (a : Byte)
  /-- JEQ Ra (rule R123). -/
  | jeq (a : Byte)
  /-- JNE Ra (rule R124). -/
  | jne (a : Byte)
  /-- LDI Ra, imm (rule R90). -/
  | ldi (a imm : Byte)
  /-- ADD Ra, Rb (rule R105). -/
  | add (a b : Byte)
  /-- MUL Ra, Rb (rule R106). -/
  | mul (a b : Byte)
  /-- CMP Ra, Rb (rule R107). -/
  | cmp (a b : Byte)
  deriving DecidableEq, Repr

/-- The four instruction formats of rule R50. -/
inductive Format where
  /-- No operand; length 1. -/
  | z
  /-- One register operand; length 2. -/
  | r
  /-- Two register operands; length 3. -/
  | rr
  /-- A register operand and an immediate; length 3. -/
  | ri
  deriving DecidableEq, Repr

end Sys2Proof
end

