-- ==== Sys2Proof/WellFormed.lean ====
section
/-! DEFINITION. Well-formed instructions: every operand byte that the format declares a register index is in 0 to 7 (rule R52,
"Values 0 to 7 select R0 to R7. Values 8 to 255 are illegal"). An immediate is any byte (rule R53). The machine also runs the
instructions that are not well formed: it answers them with InvalidRegister. -/

namespace Sys2Proof

/-- The check on one register operand (rule R52). -/
def legalIndex (a : Byte) : Bool := a.toNat < Config.core.nreg

/-- The check on an instruction: each of its register operands is legal. -/
def wellFormed : Instr → Bool
  | .hlt => true
  | .ret => true
  | .push a => legalIndex a
  | .pop a => legalIndex a
  | .prn a => legalIndex a
  | .call a => legalIndex a
  | .jmp a => legalIndex a
  | .jeq a => legalIndex a
  | .jne a => legalIndex a
  | .ldi a _ => legalIndex a
  | .add a b => legalIndex a && legalIndex b
  | .mul a b => legalIndex a && legalIndex b
  | .cmp a b => legalIndex a && legalIndex b

/-- `i` is well formed: it names only registers that exist. -/
abbrev WellFormed (i : Instr) : Prop := wellFormed i = true

end Sys2Proof
end

