-- ==== Sys2Proof/Decode.lean ====
section
/-! DEFINITION. The components `instruction_decoder` and `instruction_dispatch_table` (rules R50 to R60), the encoder written from
the same tables, and the host's decoding of an opcode-table word. -/

namespace Sys2Proof

/-- Every handler, in ascending order of opcode byte (the list under rule R56). -/
def Mnemonic.all : List Mnemonic :=
  [.hlt, .ret, .push, .pop, .prn, .call, .jmp, .jeq, .jne, .ldi, .add, .mul, .cmp]

/-- The handlers of extension `EXT_CMPJ` (rule R56). -/
def Mnemonic.isExt : Mnemonic → Bool
  | .hlt => false
  | .ret => false
  | .push => false
  | .pop => false
  | .prn => false
  | .call => false
  | .jmp => true
  | .jeq => true
  | .jne => true
  | .ldi => false
  | .add => false
  | .mul => false
  | .cmp => true

/-- The handler stands in the dispatch table of build `c` (rules R54 to R56). -/
def Mnemonic.present (c : Config) (m : Mnemonic) : Bool := c.extCmpj || !m.isExt

/-- `DISPATCH` (rule R54): a constant total function of the whole opcode byte; `none` is an unknown opcode (rule R58). -/
def dispatch (c : Config) (ir : Byte) : Option Mnemonic :=
  Mnemonic.all.find? fun m => m.present c && c.opcode m == ir

/-- The format of each instruction (rules R50, R55, R56). -/
def Mnemonic.format : Mnemonic → Format
  | .hlt => .z
  | .ret => .z
  | .push => .r
  | .pop => .r
  | .prn => .r
  | .call => .r
  | .jmp => .r
  | .jeq => .r
  | .jne => .r
  | .ldi => .ri
  | .add => .rr
  | .mul => .rr
  | .cmp => .rr

/-- The number of operand bytes of a format (rule R50). -/
def Format.operandCount : Format → Nat
  | .z => 0
  | .r => 1
  | .rr => 2
  | .ri => 2

/-- The length of an instruction in bytes: "1 + operand count" (rules R50, R60). -/
def Mnemonic.length (m : Mnemonic) : Nat := 1 + m.format.operandCount

/-- The handler selection of an instruction. -/
def Instr.mnemonic : Instr → Mnemonic
  | .hlt => .hlt
  | .ret => .ret
  | .push _ => .push
  | .pop _ => .pop
  | .prn _ => .prn
  | .call _ => .call
  | .jmp _ => .jmp
  | .jeq _ => .jeq
  | .jne _ => .jne
  | .ldi _ _ => .ldi
  | .add _ _ => .add
  | .mul _ _ => .mul
  | .cmp _ _ => .cmp

/-- A handler applied to the two fetched operand bytes: it takes as many as its format says and ignores the rest
(rules R50, R51, R74). -/
def Mnemonic.withOperands (a b : Byte) : Mnemonic → Instr
  | .hlt => .hlt
  | .ret => .ret
  | .push => .push a
  | .pop => .pop a
  | .prn => .prn a
  | .call => .call a
  | .jmp => .jmp a
  | .jeq => .jeq a
  | .jne => .jne a
  | .ldi => .ldi a b
  | .add => .add a b
  | .mul => .mul a b
  | .cmp => .cmp a b

/-- Why the decoder turns three fetched bytes away. -/
inductive DecodeReject where
  /-- No handler stands in the dispatch table for the opcode byte (rule R58). -/
  | unknownOpcode (ir : Byte)
  deriving DecidableEq, Repr

/-- Decode (rules R57, R73), total on the three bytes a cycle fetches: only the opcode byte selects; the operand bytes are
handed on unchecked. -/
def decode (c : Config) (ir a b : Byte) : Except DecodeReject Instr :=
  match dispatch c ir with
  | none => .error (.unknownOpcode ir)
  | some m => .ok (m.withOperands a b)

/-- The operand bytes of an instruction, in ascending address order (rules R35, R50). -/
def Instr.operandBytes : Instr → List Byte
  | .hlt => []
  | .ret => []
  | .push a => [a]
  | .pop a => [a]
  | .prn a => [a]
  | .call a => [a]
  | .jmp a => [a]
  | .jeq a => [a]
  | .jne a => [a]
  | .ldi a imm => [a, imm]
  | .add a b => [a, b]
  | .mul a b => [a, b]
  | .cmp a b => [a, b]

/-- The bytes of an instruction in ascending address order: opcode, `operand_a`, `operand_b` (rules R35, R50, R55, R56). -/
def encode (c : Config) (i : Instr) : List Byte := c.opcode i.mnemonic :: i.operandBytes

/-- Why a byte sequence does not begin with an instruction. -/
inductive ParseReject where
  /-- The sequence is empty. -/
  | noBytes
  /-- The first byte has no handler (rule R58). -/
  | unknownOpcode (ir : Byte)
  /-- The sequence ends before the last operand byte of this instruction (rule R50). -/
  | truncated (m : Mnemonic)
  deriving DecidableEq, Repr

/-- One instruction off the front of any byte sequence, and the rest: the walk by the length table that rule R60 gives a
disassembler. The machine itself never parses: it fetches three bytes (rule R51). -/
def parseInstr (c : Config) : List Byte → Except ParseReject (Instr × List Byte)
  | [] => .error .noBytes
  | ir :: rest =>
    match dispatch c ir with
    | none => .error (.unknownOpcode ir)
    | some m =>
      match m.format.operandCount, rest with
      | 0, rest => .ok (m.withOperands 0 0, rest)
      | 1, a :: rest => .ok (m.withOperands a 0, rest)
      | 2, a :: b :: rest => .ok (m.withOperands a b, rest)
      | _, _ => .error (.truncated m)

/-- The walk of `parseInstr` over a sequence, at most `fuel` instructions. -/
def parseWithFuel (c : Config) : Nat → List Byte → Except ParseReject (List Instr)
  | _, [] => .ok []
  | 0, _ :: _ => .error .noBytes
  | fuel + 1, ir :: rest =>
    match parseInstr c (ir :: rest) with
    | .error e => .error e
    | .ok (i, rest') =>
      match parseWithFuel c fuel rest' with
      | .error e => .error e
      | .ok is => .ok (i :: is)

/-- A whole byte sequence as instructions from its first byte (rule R60: "exactly one parse from a given start address"). -/
def parseProgram (c : Config) (bytes : List Byte) : Except ParseReject (List Instr) :=
  parseWithFuel c bytes.length bytes

/-- Byte `k` of an opcode-table word of `nbits` bits, the first byte the least significant; every bit above `nbits` is 0. -/
def tableByte (nbits w k : Nat) : Byte := BitVec.ofNat _ (w % 2 ^ nbits / 2 ^ (8 * k))

/-- The instruction the decoder reads from an opcode-table word (the host's numbering of bits). -/
def decodeTableWord (nbits w : Nat) : Option Instr :=
  match decode Config.core (tableByte nbits w 0) (tableByte nbits w 1) (tableByte nbits w 2) with
  | .ok i => some i
  | .error _ => none

end Sys2Proof
end

