-- ==== Sys2Proof/Machine/State.lean ====
section
/-! DEFINITION. The state of the machine as plain data (rules R10 to R22), the conditions that stop it (rules R130,
R131), the outcomes' reasons, and the state after reset. -/

namespace Sys2Proof.Machine

/-- The eight registers by name (rule R11); R7 is the stack pointer (rule R13). -/
inductive Reg where
  | r0 | r1 | r2 | r3 | r4 | r5 | r6 | r7
  deriving DecidableEq, Repr

/-- The Register File (rule R11): eight read-write bytes, one bank, none hard-wired. -/
structure Regs where
  r0 : Byte
  r1 : Byte
  r2 : Byte
  r3 : Byte
  r4 : Byte
  r5 : Byte
  r6 : Byte
  r7 : Byte
  deriving DecidableEq, Repr

/-- The Memory `M` (rule R30): the cells that do not hold 0x00, addresses strictly rising. -/
abbrev Memory := List Host.Cell

/-- A raised condition with the value the document requires to be reported (rules R6, R131). -/
inductive Condition where
  | unknownOpcode (ir : Byte)
  | outOfBounds (addr : Int)
  | invalidRegister (index : Byte)
  | unsupportedOperation
  deriving DecidableEq, Repr

/-- The halt record (rule R18). -/
structure HaltRecord where
  cause : Cause
  /-- The program counter at the start of the cycle that halted. -/
  pc : PcWord
  /-- The opcode byte of that cycle, if it was fetched. -/
  ir : Option Byte
  /-- 0, the opcode byte, the offending address (-1 or 256) or the offending index. -/
  info : Int
  deriving DecidableEq, Repr

/-- The complete architectural state (rule R10): "Nothing else is state". -/
structure State where
  /-- Memory `M` (rule R30). -/
  mem : Memory
  /-- Register File (rule R11). -/
  regs : Regs
  /-- Program Counter (rule R14). -/
  pc : PcWord
  /-- Flags Register `FL`: L, G, E in bits 2, 1, 0 (rule R16). -/
  fl : FlByte
  /-- Running flag (rule R17). -/
  running : Bool
  /-- Halt record, `none` while Running (rule R18). -/
  halt : Option HaltRecord
  /-- Output channel: the bytes PRN emitted, oldest first (rule R19). -/
  out : List Byte
  deriving DecidableEq, Repr

/-- The reasons `step` gives no next state. No instruction's meaning answers one: every condition of the machine is a next
state with the halt record written (rule R135). -/
inductive Fault where
  /-- Raised by `step` alone, on a Halted state: "`Step` is not defined on Halted states (no step exists)" (rule R71), "A Halted
  state has no successor" (Q14). Safe: nothing runs, as on the hardware. -/
  | halted
  deriving DecidableEq, Repr

/-- The reasons an instruction is given no meaning. -/
inductive Refusal where
  /-- Answered by `exec`'s arm of an instruction that has no meaning yet; no arm does. Safe: nothing is claimed of it. -/
  | notModelled (mnemonic : String)
  deriving DecidableEq, Repr

/-- Register `i` after reset of build `c`: "zero-initialized except register 7", the stack pointer (rule R22). -/
def resetReg (c : Config) (i : Nat) : Byte := if i = c.spIndex then c.spReset else 0x00

/-- The state after reset of build `c` (rules R22, R150): Memory all 0x00, R0 to R6 0x00, R7 = `SP_RESET`, `pc` = `PC_RESET`,
`FL` = `FL_RESET`, Running, no halt record, nothing emitted. -/
def State.resetIn (c : Config) : State where
  mem := []
  regs := ⟨resetReg c 0, resetReg c 1, resetReg c 2, resetReg c 3, resetReg c 4, resetReg c 5, resetReg c 6, resetReg c 7⟩
  pc := c.pcReset
  fl := c.flReset
  running := true
  halt := none
  out := []

/-- The machine right after reset (rule R22). -/
def State.reset : State := State.resetIn Config.core

end Sys2Proof.Machine
end

