-- ==== Sys2Proof/Machine/Ops.lean ====
section
/-! DEFINITION. The named operations every meaning is built from: the Register File's get and set, Memory's read and write, the
program counter's three moves, the output channel, and the one way a cycle leaves Running (rules R6, R12, R14, R31, R32,
R135). -/

namespace Sys2Proof.Machine

/-! ### Register File (rule R12) -/

/-- The registers in the order of their indices (rule R11). -/
def Reg.all : List Reg := [.r0, .r1, .r2, .r3, .r4, .r5, .r6, .r7]

/-- The stack pointer is the register with index `SP_INDEX`, R7 (rule R13). -/
def Reg.sp : Reg := Reg.all[Config.core.spIndex]'(by decide)

/-- `get` of the register file. -/
def Regs.get (x : Regs) : Reg → Byte
  | .r0 => x.r0
  | .r1 => x.r1
  | .r2 => x.r2
  | .r3 => x.r3
  | .r4 => x.r4
  | .r5 => x.r5
  | .r6 => x.r6
  | .r7 => x.r7

/-- `set` of the register file. -/
def Regs.set (x : Regs) (r : Reg) (v : Byte) : Regs :=
  match r with
  | .r0 => { x with r0 := v }
  | .r1 => { x with r1 := v }
  | .r2 => { x with r2 := v }
  | .r3 => { x with r3 := v }
  | .r4 => { x with r4 := v }
  | .r5 => { x with r5 := v }
  | .r6 => { x with r6 := v }
  | .r7 => { x with r7 := v }

/-- `x[i]` of rule R6. -/
def State.getReg (s : State) (r : Reg) : Byte := s.regs.get r

/-- `x[i] <- v` of rule R6. -/
def State.setReg (s : State) (r : Reg) (v : Byte) : State := { s with regs := s.regs.set r v }

/-- `sp`, shorthand for `x[7]` (rule R6). -/
def State.sp (s : State) : Byte := s.getReg .sp

/-! ### Memory (rules R30 to R33) -/

/-- What a cell that is not listed holds: "zero-initialized at construction" (rules R22, R30). -/
def Memory.unlisted : Byte := 0x00

/-- The byte in cell `a`. -/
def Memory.read (m : Memory) (a : Nat) : Byte :=
  match m with
  | [] => Memory.unlisted
  | (b, v) :: m => if a = b then v else Memory.read m a

/-- Cell `a` set to `v`, no other cell changed; the list keeps its canonical form. -/
def Memory.write (m : Memory) (a : Nat) (v : Byte) : Memory :=
  match m with
  | [] => if v = Memory.unlisted then [] else [(a, v)]
  | (b, w) :: m =>
    if a < b then if v = Memory.unlisted then (b, w) :: m else (a, v) :: (b, w) :: m
    else if a = b then if v = Memory.unlisted then m else (a, v) :: m
    else (b, w) :: Memory.write m a v

/-- The canonical form: addresses strictly rising, all below `MEM_SIZE`, and no entry an unlisted cell would read as. -/
abbrev Memory.wf (m : Memory) : Prop :=
  m.Pairwise (fun c d => c.1 < d.1) ∧ ∀ c ∈ m, c.1 < Config.core.memSize ∧ c.2 ≠ Memory.unlisted

/-- `0 <= address <= 255`, the range check of rules R31 and R32. -/
abbrev inRange (addr : Int) : Prop := 0 ≤ addr ∧ addr < Config.core.memSize

/-- `MemRead(addr, 1)` (rules R6, R31). -/
def State.memRead (s : State) (addr : Int) : Except Condition Byte :=
  if inRange addr then .ok (s.mem.read addr.toNat) else .error (.outOfBounds addr)

/-- `n` bytes from `base` up: `MemRead` in ascending address order, up to the first that raises (rules R40, R72). -/
def State.memReads (s : State) (base : Nat) : (n : Nat) → Except Condition (Vector Byte n)
  | 0 => .ok #v[]
  | n + 1 => do
    let bytes ← s.memReads base n
    let v ← s.memRead (base + n)
    .ok (bytes.push v)

/-- `MemWrite(addr, 1, v)` (rules R6, R32). -/
def State.memWrite (s : State) (addr : Int) (v : Byte) : Except Condition State :=
  if inRange addr then .ok { s with mem := s.mem.write addr.toNat v } else .error (.outOfBounds addr)

/-! ### Program counter, flags, output (rules R14 to R16, R19) -/

/-- `pc <- pc0 + n`, in the counter's 9 bits: never reduced modulo 256 (rules R14, R15). -/
def State.advance (s : State) (n : Nat) : State := { s with pc := s.pc + BitVec.ofNat _ n }

/-- `pc <- byte`, zero-extended (rule R125). -/
def State.redirect (s : State) (target : Byte) : State := { s with pc := target.setWidth _ }

/-- `FL <- v`, the whole byte (rule R107). -/
def State.setFl (s : State) (v : FlByte) : State := { s with fl := v }

/-- `Emit(v)`: `out <- out ++ [v]` (rules R6, R19). -/
def State.emit (s : State) (v : Byte) : State := { s with out := s.out ++ [v] }

/-! ### Leaving Running (rules R18, R76, R135) -/

/-- The cause recorded for a condition (rule R131). -/
def Condition.cause : Condition → Cause
  | .unknownOpcode _ => .unknownOpcode
  | .outOfBounds _ => .outOfBounds
  | .invalidRegister _ => .invalidRegister
  | .unsupportedOperation => .unsupportedOperation

/-- The value recorded for a condition (rules R18, R131). -/
def Condition.info : Condition → Int
  | .unknownOpcode ir => ir.toNat
  | .outOfBounds addr => addr
  | .invalidRegister index => index.toNat
  | .unsupportedOperation => 0

/-- The numeric code of a cause (rule R131, decision D15). -/
def Cause.code (k : Cause) : Nat := Config.core.causeCode (some k)

/-- `halt.ir` (rule R18): "the opcode byte `M[pc0]` if `pc0 <= 255`, else `none`". -/
def State.opcodeAtPc (s : State) : Option Byte :=
  if s.pc.toNat < Config.core.memSize then some (s.mem.read s.pc.toNat) else none

/-- The machine stops, precisely: `running <- false` and the halt record is written; nothing else changes (rules R76, R77,
R135). `s` is the state at the start of the cycle. -/
def State.haltWith (s : State) (cause : Cause) (info : Int) : State :=
  { s with running := false, halt := some { cause := cause, pc := s.pc, ir := s.opcodeAtPc, info := info } }

/-- Taking a condition (rules R6, R135): every change of the cycle is discarded, so `s` is the state at its start. There is no
return from it (rule R138): only reset leaves Halted. -/
def State.raise (s : State) (e : Condition) : State := s.haltWith e.cause e.info

/-- The end of a handler that started in `s`: what it computed, or the condition it raised taken in `s`. -/
def finish (s : State) : Except Condition State → Host.Outcome State Fault Refusal
  | .ok t => .next t
  | .error e => .next (s.raise e)

end Sys2Proof.Machine
end

