-- ==== Sys2Proof/Machine/Flags.lean ====
section
/-! DEFINITION. The flags register `FL` (rules R16, R103): the byte a comparison leaves in it, and its three bits. -/

namespace Sys2Proof.Machine

/-- A byte with one flag bit set. -/
def flagByte (bit : Nat) : FlByte := 1 <<< bit

/-- The outcome of comparing two bytes as unsigned integers: exactly one of L, G, E (rule R103). -/
def compareFlags (a b : Byte) : FlByte :=
  if a.toNat < b.toNat then flagByte Config.core.flBitL
  else if b.toNat < a.toNat then flagByte Config.core.flBitG
  else flagByte Config.core.flBitE

/-- `FL.L` (rule R6). -/
def State.flL (s : State) : Bool := s.fl.getLsbD Config.core.flBitL

/-- `FL.G` (rule R6). -/
def State.flG (s : State) : Bool := s.fl.getLsbD Config.core.flBitG

/-- `FL.E` (rule R6): the only bit an instruction reads (rules R16, R123, R124). -/
def State.flE (s : State) : Bool := s.fl.getLsbD Config.core.flBitE

end Sys2Proof.Machine
end

