-- ==== Sys2Proof/Machine/Alu.lean ====
section
/-! DEFINITION. The component `alu_8bit` (rules R100 to R104): a pure function of an operation and two bytes. -/

namespace Sys2Proof.Machine

/-- The operation identifier, "an enumerated value {ADD, MUL, CMP, other}" (rule R104, decision D17). -/
inductive AluOp where
  | add | mul | cmp | other
  deriving DecidableEq, Repr

/-- `ALU(op, a, b)`: computed exactly, then narrowed to eight bits (rules R101, R102); CMP gives the new `FL` (rule R103); any
other operation is UnsupportedOperation, never a silent result (rule R104). -/
def alu (op : AluOp) (a b : Byte) : Except Condition Byte :=
  match op with
  | .add => .ok (BitVec.ofNat _ (a.toNat + b.toNat))
  | .mul => .ok (BitVec.ofNat _ (a.toNat * b.toNat))
  | .cmp => .ok (compareFlags a b)
  | .other => .error .unsupportedOperation

end Sys2Proof.Machine
end

