-- ==== Sys2Proof/Machine/Operands.lean ====
section
/-! DEFINITION. The operand forms: a register operand is a whole operand byte, checked by `CheckReg` and never masked (rules R6,
R12, R52). The other form, LDI's immediate, is the operand byte itself (rule R53). -/

namespace Sys2Proof.Machine

/-- The operand byte that names a register. -/
def Reg.index : Reg → Byte
  | .r0 => 0
  | .r1 => 1
  | .r2 => 2
  | .r3 => 3
  | .r4 => 4
  | .r5 => 5
  | .r6 => 6
  | .r7 => 7

/-- The register an operand byte names, if it is below `NREG` (rule R52). -/
def Reg.ofIndex (a : Byte) : Option Reg := (Reg.all.take Config.core.nreg)[a.toNat]?

/-- `CheckReg(i)` (rules R6, R133): the register, or InvalidRegister with the whole byte. -/
def checkReg (a : Byte) : Except Condition Reg :=
  match Reg.ofIndex a with
  | some r => .ok r
  | none => .error (.invalidRegister a)

end Sys2Proof.Machine
end

