-- ==== Sys2Proof/Machine/Arithmetic.lean ====
section
/-! DEFINITION. The ALU family: ADD, MUL and CMP (42_arithmetic.md). -/

namespace Sys2Proof.Machine

/-- The common shape of the ALU instructions: both indices checked, `operand_a` first, both values read, one ALU operation
(rules R74, R105 to R107). -/
def aluOperands (op : AluOp) (a b : Byte) (s : State) : Except Condition (Reg × Byte) := do
  let ra ← checkReg a
  let rb ← checkReg b
  let v ← alu op (s.getReg ra) (s.getReg rb)
  .ok (ra, v)

/-- ADD Ra, Rb (rule R105). -/
def execAdd (a b : Byte) (s : State) : Host.Outcome State Fault Refusal :=
  finish s do
    let (r, v) ← aluOperands .add a b s
    .ok ((s.setReg r v).advance 3)

/-- MUL Ra, Rb (rule R106). -/
def execMul (a b : Byte) (s : State) : Host.Outcome State Fault Refusal :=
  finish s do
    let (r, v) ← aluOperands .mul a b s
    .ok ((s.setReg r v).advance 3)

/-- CMP Ra, Rb (rule R107): the outcome goes to `FL`. -/
def execCmp (a b : Byte) (s : State) : Host.Outcome State Fault Refusal :=
  finish s do
    let (_, v) ← aluOperands .cmp a b s
    .ok ((s.setFl v).advance 3)

end Sys2Proof.Machine
end

