-- ==== Sys2Proof/Machine/Stack.lean ====
section
/-! DEFINITION. The component `stack_pointer_logic` (rules R110 to R112) and the instructions PUSH and POP (43_stack.md). Each
step sees the writes of the steps before it (decision D11; log entry 6). -/

namespace Sys2Proof.Machine

/-- The address the next push stores to: `x[7] - 1`, or OutOfBounds(-1) when R7 = 0 (rules R110, R111). -/
def pushAddress (s : State) : Except Condition Byte :=
  if s.sp = Config.core.spMin then .error (.outOfBounds (-1)) else .ok (s.sp - 1)

/-- The decrement of a push (rule R111). -/
def stackReserve (s : State) : Except Condition State := do
  let p ← pushAddress s
  .ok (s.setReg .sp p)

/-- The store of a push, at the pointer already decremented (rule R111). -/
def stackStore (v : Byte) (s : State) : Except Condition State := s.memWrite s.sp.toNat v

/-- `StackPush(v)` (rule R111). -/
def stackPush (v : Byte) (s : State) : Except Condition State := do
  let s ← stackReserve s
  stackStore v s

/-- `StackLoad()`, part 1 of a pop (rule R112). -/
def stackLoad (s : State) : Except Condition Byte := s.memRead s.sp.toNat

/-- `StackRelease()`, part 2 of a pop: the increment, or OutOfBounds(256) when R7 = 0xFF (rule R112). -/
def stackRelease (s : State) : Except Condition State :=
  if s.sp = Config.core.spMax then .error (.outOfBounds Config.core.memSize) else .ok (s.setReg .sp (s.sp + 1))

/-- PUSH Ra (rule R113): `x[a]` is read after the decrement. -/
def execPush (a : Byte) (s : State) : Host.Outcome State Fault Refusal :=
  finish s do
    let r ← checkReg a
    let s ← stackReserve s
    let s ← stackStore (s.getReg r) s
    .ok (s.advance 2)

/-- POP Ra (rule R114): the limit is checked on `x[7]` as the load left it. -/
def execPop (a : Byte) (s : State) : Host.Outcome State Fault Refusal :=
  finish s do
    let r ← checkReg a
    let v ← stackLoad s
    let s ← stackRelease (s.setReg r v)
    .ok (s.advance 2)

end Sys2Proof.Machine
end

