-- ==== Sys2Proof/Machine/Control.lean ====
section
/-! DEFINITION. The control-flow family: CALL, RET, JMP, JEQ, JNE (44_control_flow.md) and HLT (40_execution_loop.md rule R76). -/

namespace Sys2Proof.Machine

/-- `pc0 + 2` as a byte, the return address CALL pushes (rule R120). The fetch has required `pc0 <= 253` (rule R23), so nothing
is cut off in any step (log entry 8). -/
def returnAddress (s : State) : Byte := (s.pc + 2).setWidth _

/-- CALL Ra (rule R120): `x[a]` is read after the push. -/
def execCall (a : Byte) (s : State) : Host.Outcome State Fault Refusal :=
  finish s do
    let r ← checkReg a
    let s ← stackPush (returnAddress s) s
    .ok (s.redirect (s.getReg r))

/-- RET (rule R121). -/
def execRet (s : State) : Host.Outcome State Fault Refusal :=
  finish s do
    let v ← stackLoad s
    let s ← stackRelease s
    .ok (s.redirect v)

/-- A jump on one register operand: the index is checked whether or not the jump is taken (rules R122 to R124, decision D13). -/
def jumpIf (taken : Bool) (a : Byte) (s : State) : Except Condition State := do
  let r ← checkReg a
  .ok (if taken then s.redirect (s.getReg r) else s.advance 2)

/-- JMP Ra (rule R122). -/
def execJmp (a : Byte) (s : State) : Host.Outcome State Fault Refusal := finish s (jumpIf true a s)

/-- JEQ Ra (rule R123): taken when `FL[0] = 1`. -/
def execJeq (a : Byte) (s : State) : Host.Outcome State Fault Refusal := finish s (jumpIf s.flE a s)

/-- JNE Ra (rule R124): taken when `FL[0] = 0`. -/
def execJne (a : Byte) (s : State) : Host.Outcome State Fault Refusal := finish s (jumpIf (!s.flE) a s)

/-- HLT (rule R76): the normal end; `pc` stays at the HLT byte. -/
def execHlt (s : State) : Host.Outcome State Fault Refusal := .next (s.haltWith .hlt 0)

end Sys2Proof.Machine
end

