-- ==== Sys2Proof/Machine/DataMove.lean ====
section
/-! DEFINITION. The data-move and output family: LDI and PRN (41_data_move.md). -/

namespace Sys2Proof.Machine

/-- LDI Ra, imm (rule R90). -/
def execLdi (a imm : Byte) (s : State) : Host.Outcome State Fault Refusal :=
  finish s do
    let r ← checkReg a
    .ok ((s.setReg r imm).advance 3)

/-- PRN Ra (rule R91). -/
def execPrn (a : Byte) (s : State) : Host.Outcome State Fault Refusal :=
  finish s do
    let r ← checkReg a
    .ok ((s.emit (s.getReg r)).advance 2)

end Sys2Proof.Machine
end

