-- ==== Sys2Proof/Machine/Cycle.lean ====
section
/-! DEFINITION. The component `fetch_decode_execute_loop` (rules R70 to R75): the three-byte fetch, and one cycle of a build. -/

namespace Sys2Proof.Machine

/-- The three bytes of a cycle (rule R72). They are transient: no state holds them (rule R10). -/
structure Fetched where
  ir : Byte
  a : Byte
  b : Byte
  deriving DecidableEq, Repr

/-- Fetch (rule R72): `FETCH_BYTES` = 3 reads through the Memory contract, in ascending address order, whatever the instruction's length;
the first address above 255 raises OutOfBounds. -/
def fetch (s : State) : Except Condition Fetched := do
  let bytes ← s.memReads s.pc.toNat Config.core.fetchBytes
  .ok ⟨bytes[0]'(by decide), bytes[1]'(by decide), bytes[2]'(by decide)⟩

/-- The condition of a cycle whose decode finds no handler (rules R73, R77). -/
def rejectCondition : DecodeReject → Condition
  | .unknownOpcode ir => .unknownOpcode ir

/-- One cycle of build `c` (rule R71): fetch, decode, dispatch, as one atomic step. No cycle runs in Halted (rule R70). -/
def cycle (c : Config) (s : State) : Host.Outcome State Fault Refusal :=
  if s.running then
    match fetch s with
    | .error e => .next (s.raise e)
    | .ok f =>
      match decode c f.ir f.a f.b with
      | .error e => .next (s.raise (rejectCondition e))
      | .ok i => exec i s
  else .fault .halted

/-- Three bytes stored at addresses `at0` and up. -/
def Memory.writeThree (m : Memory) (at0 : Nat) (b0 b1 b2 : Byte) : Memory :=
  ((m.write at0 b0).write (at0 + 1) b1).write (at0 + 2) b2

/-- `s` with three bytes placed where the next cycle fetches them. In a Running state whose fetch can succeed (`pc <= 253`) only
the three cells change; in any other state the fetch also needs Running, no halt record and a program counter it can fetch
at, and gets them (log entry 9). -/
def placeFetch (s : State) (b0 b1 b2 : Byte) : State :=
  let pc0 : PcWord := if s.pc.toNat + Config.core.fetchBytes ≤ Config.core.memSize then s.pc else Config.core.pcReset
  { s with
    mem := s.mem.writeThree pc0.toNat b0 b1 b2
    pc := pc0
    running := true
    halt := if s.running then s.halt else none }

end Sys2Proof.Machine
end

