-- ==== Sys2Proof/Machine/Step.lean ====
section
/-! DEFINITION. The step of the machine: one cycle of the build `Config.core` (rules R3, R71). -/

namespace Sys2Proof.Machine

/-- One step: one whole cycle (rules R3, R71). -/
def step (s : State) : Host.Outcome State Fault Refusal := cycle Config.core s

/-- `s` with an opcode-table word's bytes (its bits above `nbits` 0, three bytes in all) where `step` fetches next. -/
def State.withFetchWord (s : State) (nbits w : Nat) : State :=
  placeFetch s (tableByte nbits w 0) (tableByte nbits w 1) (tableByte nbits w 2)

end Sys2Proof.Machine
end

