-- ==== Sys2Proof/Machine/Launch.lean ====
section
/-! DEFINITION. The host's part: launch and read-back (rules R24, R62, R92, R147, R153, R156). No instruction reaches anything of
this file; `step` does not use it. -/

namespace Sys2Proof.Machine

/-! ### Launch (rules R24, R153) -/

/-- `load(addr, byte)`, repeated: a byte sequence written sequentially into Memory from `base` (rules R24, R153). -/
def Memory.load (m : Memory) (base : Nat) : List Byte → Memory
  | [] => m
  | v :: p => Memory.load (m.write base v) (base + 1) p

/-- The launch state of a program (rule R153): the reset state with the program's bytes from `LOAD_BASE`, nothing else written.
A program that does not fit has no launch state (decision D16). -/
def launchIn (c : Config) (p : List Byte) : Option State :=
  if c.loadBase + p.length ≤ c.memSize then
    some { State.resetIn c with mem := (State.resetIn c).mem.load c.loadBase p }
  else none

/-- The launch state in the build that `step` runs. -/
def launch (p : List Byte) : Option State := launchIn Config.core p

/-! ### The object file the loader reads (rule R62) -/

/-- The white space a payload is trimmed of: space, tab and carriage return (log entry 11; the document does not list it). -/
def isBlank (ch : Char) : Bool := ch = ' ' || ch = '\t' || ch = '\r'

/-- The payload of a line: what precedes a `#`, trimmed (rule R62). -/
def linePayload (line : List Char) : List Char :=
  (((line.takeWhile (· ≠ '#')).dropWhile isBlank).reverse.dropWhile isBlank).reverse

/-- Base-2 digits, most significant first; `none` on any other character (rule R62). -/
def bitsValue (acc : Nat) : List Char → Option Nat
  | [] => some acc
  | '0' :: rest => bitsValue (2 * acc) rest
  | '1' :: rest => bitsValue (2 * acc + 1) rest
  | _ :: _ => none

/-- A payload as a byte: an 8-bit string. The document gives no other payload a meaning (U9, N16), so it has none here. -/
def payloadByte (payload : List Char) : Option Byte :=
  if payload.length = Config.core.xlen then (bitsValue 0 payload).map (BitVec.ofNat _) else none

/-- A text cut at its line ends. -/
def textLines : List Char → List (List Char)
  | [] => [[]]
  | '\n' :: rest => [] :: textLines rest
  | ch :: rest =>
    match textLines rest with
    | [] => [[ch]]
    | line :: lines => (ch :: line) :: lines

/-- The bytes of a list of lines, in order, blank payloads skipped (rule R62). -/
def linesBytes : List (List Char) → Option (List Byte)
  | [] => some []
  | line :: lines =>
    match linePayload line with
    | [] => linesBytes lines
    | ch :: payload => do
      let v ← payloadByte (ch :: payload)
      let p ← linesBytes lines
      some (v :: p)

/-- The byte sequence of an object file (rule R62): the `k`-th non-blank payload is byte `k`. -/
def objectBytes (text : List Char) : Option (List Byte) := linesBytes (textLines text)

/-- A byte as the object file writes it: eight binary digits, most significant first (rule R62). -/
def objectLine (v : Byte) : List Char :=
  (List.range Config.core.xlen).reverse.map fun k => if v.getLsbD k then '1' else '0'

/-- A byte sequence as an object file without comments. -/
def objectFile (p : List Byte) : List Char := p.flatMap fun v => objectLine v ++ ['\n']

/-! ### Read-back (rules R24, R92, R131, R147, R156) -/

/-- The numeric cause of the status interface: 0 while Running, else the code of rule R131. -/
def statusCode (s : State) : Nat :=
  Config.core.causeCode (s.halt.map HaltRecord.cause)

/-- The decimal digits of a byte, most significant first, no leading zero, a single 0 for zero (rule R92). -/
def decimalDigits (v : Byte) : List Nat :=
  let n := v.toNat
  if n < 10 then [n]
  else if n < 100 then [n / 10, n % 10]
  else [n / 100, n / 10 % 10, n % 10]

/-- The lines the host shows for an output channel, one numeral a line, without their terminators, whose bytes are the host's
(rules R19, R92). -/
def renderOut (out : List Byte) : List (List Char) :=
  out.map fun v => (decimalDigits v).map Nat.digitChar

/-- What the trace observer samples (rule R147): `pc`, the next three Memory bytes and the eight registers. A byte beyond the
end of Memory is `none` (log entry 12: "what the observer does when `pc >= 254` is not stated"). -/
structure TraceSample where
  pc : PcWord
  m0 : Option Byte
  m1 : Option Byte
  m2 : Option Byte
  regs : Regs
  deriving DecidableEq, Repr

/-- A cell if it exists. -/
def cellAt (s : State) (a : Nat) : Option Byte := if a < Config.core.memSize then some (s.mem.read a) else none

/-- The read-only trace observer (rule R147). -/
def traceSample (s : State) : TraceSample where
  pc := s.pc
  m0 := cellAt s s.pc.toNat
  m1 := cellAt s (s.pc.toNat + 1)
  m2 := cellAt s (s.pc.toNat + 2)
  regs := s.regs

end Sys2Proof.Machine
end

