-- ==== Sys2Proof/Safety.lean ====
section
/-! DEFINITION. The terms the claims are stated in: what is kept, what a halt leaves, how a run ends, the invariant of rule R23 and
the reachable states of a build. -/

namespace Sys2Proof.Machine

/-! ### What a cycle leaves unchanged -/

/-- Every register outside `rs` holds in `t` what it held in `s`. -/
def RegsKept (rs : List Reg) (s t : State) : Prop := ∀ r, r ∉ rs → t.getReg r = s.getReg r

/-- Every byte of Memory outside the addresses `as` reads in `t` as it read in `s`. -/
def CellsKept (as : List Nat) (s t : State) : Prop := ∀ a, a ∉ as → t.mem.read a = s.mem.read a

/-- The machine status, the Running flag and the halt record, is unchanged. -/
def StatusKept (s t : State) : Prop := t.running = s.running ∧ t.halt = s.halt

/-! ### What a halt leaves (rules R18, R131, R135) -/

/-- The opcode byte of the cycle that starts in `s`: `M[pc0]` for `pc0 <= 255`, else none (rule R18). -/
def fetchedOpcode (s : State) : Option Byte := if s.pc.toNat ≤ 255 then some (s.mem.read s.pc.toNat) else none

/-- `t` is `s` stopped with this cause and info: `M`, `x`, `pc`, `FL` and `out` exactly as in `s`, `running` false, and the
halt record {cause, pc0, ir, info} (rule R135). -/
def StoppedAs (s t : State) (cause : Cause) (info : Int) : Prop :=
  t.mem = s.mem ∧ t.regs = s.regs ∧ t.pc = s.pc ∧ t.fl = s.fl ∧ t.out = s.out ∧ t.running = false ∧
    t.halt = some { cause := cause, pc := s.pc, ir := fetchedOpcode s, info := info }

/-- The cycle left Running with this cause. -/
def HaltedBy (t : State) (cause : Cause) : Prop := ∃ h, t.halt = some h ∧ h.cause = cause

/-- The run has ended normally: only HLT ends one so (rule R136: "A claim that a program "ends normally" must require
`halt.cause = HLT`"). -/
def EndsNormally (t : State) : Prop := t.running = false ∧ HaltedBy t .hlt

/-! ### The instruction of a cycle -/

/-- The cycle that starts in `s` fetches without a condition and decodes `i`, in build `c` (rules R72, R73). -/
def Runs (c : Config) (s : State) (i : Instr) : Prop :=
  s.running = true ∧ s.pc.toNat ≤ 253 ∧
    decode c (s.mem.read s.pc.toNat) (s.mem.read (s.pc.toNat + 1)) (s.mem.read (s.pc.toNat + 2)) = .ok i

/-- The operand bytes that the instruction's format declares register indices, `operand_a` first (rules R50, R133). -/
def registerOperands : Instr → List Byte
  | .hlt => []
  | .ret => []
  | .push a => [a]
  | .pop a => [a]
  | .prn a => [a]
  | .call a => [a]
  | .jmp a => [a]
  | .jeq a => [a]
  | .jne a => [a]
  | .ldi a _ => [a]
  | .add a b => [a, b]
  | .mul a b => [a, b]
  | .cmp a b => [a, b]

/-! ### The invariant of reachable states (rules R18, R23, R131) -/

/-- What the halt record of a Halted state says of it (rules R18, R131, R134). -/
def HaltRecord.Matches (h : HaltRecord) (s : State) : Prop :=
  h.pc = s.pc ∧ h.ir = fetchedOpcode s ∧
    match h.cause with
    | .hlt => h.info = 0 ∧ h.ir = some 0x01
    | .unknownOpcode => h.ir = some (BitVec.ofInt 8 h.info) ∧ 0 ≤ h.info ∧ h.info ≤ 255
    | .outOfBounds => h.info = -1 ∨ h.info = 256
    | .invalidRegister => 8 ≤ h.info ∧ h.info ≤ 255 ∧ h.ir ≠ none
    | .unsupportedOperation => False

/-- The invariant of rule R23, with the halt record's meaning and the canonical form of Memory. -/
structure State.Inv (s : State) : Prop where
  /-- Memory is in canonical form and within its 256 cells. -/
  mem : s.mem.wf
  /-- `0 <= pc <= 256`. -/
  pc : s.pc.toNat ≤ 256
  /-- `FL` is one of 0x00, 0x01, 0x02, 0x04. -/
  fl : s.fl = 0x00 ∨ s.fl = 0x01 ∨ s.fl = 0x02 ∨ s.fl = 0x04
  /-- `halt = none` exactly when `running = true`. -/
  status : s.halt = none ↔ s.running = true
  /-- The halt record describes the state it stopped. -/
  record : ∀ h, s.halt = some h → h.Matches s

/-- `k` cycles of build `c` (rule R78), ended early by the first state that has no successor. -/
def run (c : Config) : Nat → State → Host.Outcome State Fault Refusal
  | 0, s => .next s
  | k + 1, s =>
    match cycle c s with
    | .next t => run c k t
    | .fault e => .fault e
    | .refused e => .refused e

/-- The states of the runs of build `c` (rules R78, R153): a launch state, or the next state of one. -/
inductive Reachable (c : Config) : State → Prop where
  | launch (p : List Byte) (s : State) : launchIn c p = some s → Reachable c s
  | next (s t : State) : Reachable c s → cycle c s = .next t → Reachable c t

end Sys2Proof.Machine
end

