-- ==== Sys2Proof/Certificates/Slice0/Obligations.lean ====
section
/-! DEFINITION. The statements for the provers. `ext` is the parameter `EXT_CMPJ`: a statement over `Config.build ext` is about both
builds, and `step` is the cycle of the build with `ext = true` (log entry 1). A handler runs only after its fetch has passed,
so statements about a handler's new `pc` take `pc0 <= 253` (rules R23, R72). An operand byte in 0 to 7 is written `r.index`; the
other operand bytes are those above 7. Statements about a store take Memory in canonical form, which every step keeps
(StepKeepsInvariant). The bytes of ADD, MUL, PUSH, POP, CALL, RET, CMP, JMP, JEQ and JNE are the spec's own supply (decision D2,
"from general knowledge", log entry 2), and so are the outcomes when the operand of PUSH, POP or CALL is R7 (decision D11, log
entry 6): statements that use either are derived. -/

open Sys2Proof Sys2Proof.Machine

/-! ### Reset and launch -/

/-- Rule R22: the value of every piece of state after reset, in both builds (`FL` = 0x00 is the spec's decision D4). -/
def Obligations.ResetLeavesStatedValues : Prop :=
  (∀ ext, (∀ a, (State.resetIn (Config.build ext)).mem.read a = 0x00) ∧
    (∀ r, r ≠ Reg.r7 → (State.resetIn (Config.build ext)).getReg r = 0x00) ∧
    (State.resetIn (Config.build ext)).getReg .r7 = 0xF4 ∧
    (State.resetIn (Config.build ext)).pc = 0 ∧
    (State.resetIn (Config.build ext)).fl = 0x00 ∧
    (State.resetIn (Config.build ext)).running = true ∧
    (State.resetIn (Config.build ext)).halt = none ∧
    (State.resetIn (Config.build ext)).out = []) ∧
  State.reset = State.resetIn (Config.build true)

/-- The reset state of both builds meets the invariant of rule R23. -/
def Obligations.ResetMeetsInvariant : Prop :=
  (∀ ext, (State.resetIn (Config.build ext)).Inv) ∧ State.reset.Inv

/-- Rule R153: a program of at most 256 bytes has exactly one launch state, its bytes from address 0 in the reset state; a longer
one has none (the spec's decision D16). -/
def Obligations.LaunchWritesProgramFromZero : Prop :=
  ∀ ext (p : List Byte),
    (p.length ≤ 256 → ∃ s, launchIn (Config.build ext) p = some s ∧
      (∀ k v, p[k]? = some v → s.mem.read k = v) ∧ (∀ k, p.length ≤ k → s.mem.read k = 0x00) ∧
      s.regs = (State.resetIn (Config.build ext)).regs ∧ s.pc = (State.resetIn (Config.build ext)).pc ∧
      s.fl = (State.resetIn (Config.build ext)).fl ∧ s.running = (State.resetIn (Config.build ext)).running ∧
      s.halt = (State.resetIn (Config.build ext)).halt ∧ s.out = (State.resetIn (Config.build ext)).out) ∧
    (256 < p.length → launchIn (Config.build ext) p = none)

/-! ### The cycle -/

/-- A cycle whose fetch passes and whose bytes decode to `i` is the handler of `i` (rules R71 to R74); `step` is the cycle of the
build with `EXT_CMPJ = true`. Nothing stands around the handler: it moves `pc` itself (rule R75). -/
def Obligations.StepRunsDecodedInstruction : Prop :=
  (∀ ext s i, Runs (Config.build ext) s i → cycle (Config.build ext) s = exec i s) ∧
  (∀ s i, Runs (Config.build true) s i → step s = exec i s) ∧
  (∀ s, step s = cycle (Config.build true) s)

/-- Rule R72: three reads in ascending address order, and the first address above 255 raises OutOfBounds with that address. -/
def Obligations.FetchReadsThreeBytesInOrder : Prop :=
  ∀ s : State, fetch s =
    if 255 < s.pc.toNat then .error (.outOfBounds s.pc.toNat)
    else if 255 < s.pc.toNat + 1 then .error (.outOfBounds (s.pc.toNat + 1))
    else if 255 < s.pc.toNat + 2 then .error (.outOfBounds (s.pc.toNat + 2))
    else .ok ⟨s.mem.read s.pc.toNat, s.mem.read (s.pc.toNat + 1), s.mem.read (s.pc.toNat + 2)⟩

/-- Q1: a cycle that starts at 254, 255 or 256 halts with OutOfBounds(256), whatever the opcode byte and the build, with `ir`
the byte at `pc0`, or none at 256. -/
def Obligations.FetchNearMemoryEndStops : Prop :=
  ∀ ext s, s.running = true → 254 ≤ s.pc.toNat → s.pc.toNat ≤ 256 →
    ∃ t, cycle (Config.build ext) s = .next t ∧ StoppedAs s t .outOfBounds 256 ∧
      (s.pc.toNat = 256 → ∃ h, t.halt = some h ∧ h.ir = none) ∧
      (s.pc.toNat < 256 → ∃ h, t.halt = some h ∧ h.ir = some (s.mem.read s.pc.toNat))

/-- Rule R77: a fetched opcode without a handler halts the machine with its value and its address, and changes nothing else. -/
def Obligations.UnknownOpcodeHaltsGracefully : Prop :=
  (∀ ext s, s.running = true → s.pc.toNat ≤ 253 → dispatch (Config.build ext) (s.mem.read s.pc.toNat) = none →
    ∃ t, cycle (Config.build ext) s = .next t ∧ StoppedAs s t .unknownOpcode (s.mem.read s.pc.toNat).toNat) ∧
  (∃ t, step State.reset = .next t ∧
    t.halt = some { cause := .unknownOpcode, pc := 0, ir := some 0x00, info := 0 })

/-- Rules R70 and R71, Q14: every Running state has a next state, and a Halted one has none. -/
def Obligations.OnlyRunningStatesHaveSuccessors : Prop :=
  ∀ ext s, (s.running = true → ∃ t, cycle (Config.build ext) s = .next t) ∧
    (s.running = false → cycle (Config.build ext) s = .fault .halted)

/-- Rule R78: a run that has ended has no further state, and every state before its end is Running. -/
def Obligations.RunEndsAtFirstHalt : Prop :=
  ∀ ext (k : Nat) (s t : State), run (Config.build ext) k s = .next t →
    (t.running = false → ∀ n, run (Config.build ext) (k + n + 1) s = .fault .halted) ∧
    (∀ j, j < k → ∃ u, run (Config.build ext) j s = .next u ∧ u.running = true)

/-! ### Encodings -/

/-- Rule R54: `DISPATCH` is the opcode map and nothing else: a total function that gives a handler exactly to its own byte and,
in the build without the extension, none to the four extension bytes; no two bytes share a handler. -/
def Obligations.DispatchIsTheOpcodeMap : Prop :=
  (∀ ext m b, dispatch (Config.build ext) b = some m ↔ b = opcodeByte m ∧ (ext = true ∨ m.isExt = false)) ∧
  (∀ ext ext' m b b', dispatch (Config.build ext) b = some m → dispatch (Config.build ext') b' = some m → b = b')

/-- Rule R58: 243 byte values are unknown opcodes with `EXT_CMPJ = true` and 247 with `EXT_CMPJ = false`; 0x00 is one in both. -/
def Obligations.UnknownOpcodesAreCounted : Prop :=
  ((List.range 256).filter fun n => (dispatch (Config.build true) (BitVec.ofNat 8 n)).isNone).length = 243 ∧
  ((List.range 256).filter fun n => (dispatch (Config.build false) (BitVec.ofNat 8 n)).isNone).length = 247 ∧
  (∀ ext, dispatch (Config.build ext) 0x00 = none)

/-- The bytes of rules R55 and R56, one word of each instruction with register and immediate operands: LDI, PRN and HLT from the
document's example, the other ten bytes the spec's own supply (log entry 2). -/
def Obligations.WordsOfEveryFamilyDecode : Prop :=
  (∀ ext, decode (Config.build ext) 0x82 0x00 0x08 = .ok (.ldi 0 8) ∧
    decode (Config.build ext) 0x47 0x00 0x01 = .ok (.prn 0) ∧ decode (Config.build ext) 0x01 0x00 0x00 = .ok .hlt ∧
    decode (Config.build ext) 0xA0 0x02 0x05 = .ok (.add 2 5) ∧ decode (Config.build ext) 0xA2 0x03 0x06 = .ok (.mul 3 6) ∧
    decode (Config.build ext) 0x45 0x04 0xFF = .ok (.push 4) ∧ decode (Config.build ext) 0x46 0x07 0xFF = .ok (.pop 7) ∧
    decode (Config.build ext) 0x50 0x01 0xFF = .ok (.call 1) ∧ decode (Config.build ext) 0x11 0xFF 0xFF = .ok .ret) ∧
  decode (Config.build true) 0xA7 0x01 0x02 = .ok (.cmp 1 2) ∧ decode (Config.build true) 0x54 0x03 0x00 = .ok (.jmp 3) ∧
  decode (Config.build true) 0x55 0x03 0x00 = .ok (.jeq 3) ∧ decode (Config.build true) 0x56 0x03 0x00 = .ok (.jne 3)

/-- No bit of an encoding is dropped: for every instruction that the build has, with every operand byte, the three bytes fetched
where its encoding stands decode to it, whatever follows (rules R50, R51). -/
def Obligations.EncodedInstructionDecodesBack : Prop :=
  ∀ ext (i : Instr) (rest tail : List Byte) (ir a b : Byte), i.mnemonic.present (Config.build ext) = true →
    encode (Config.build ext) i ++ rest = ir :: a :: b :: tail → decode (Config.build ext) ir a b = .ok i

/-- The other direction: bytes that decode to `i` begin with the encoding of `i`, and the build has `i` (rules R50, R54). -/
def Obligations.DecodedBytesBeginWithTheEncoding : Prop :=
  ∀ ext (i : Instr) (ir a b : Byte), decode (Config.build ext) ir a b = .ok i →
    encode (Config.build ext) i <+: [ir, a, b] ∧ i.mnemonic.present (Config.build ext) = true

/-- Rule R60: a byte sequence has exactly one parse from its first byte, so the encodings of a list of instructions, one after the
other, parse back to that list. -/
def Obligations.EncodedProgramParsesBack : Prop :=
  ∀ ext (is : List Instr), (∀ i ∈ is, i.mnemonic.present (Config.build ext) = true) →
    parseProgram (Config.build ext) (is.flatMap (encode (Config.build ext))) = .ok is

/-- Rule R51: the bytes a format marks ignored have no influence on the instruction. -/
def Obligations.IgnoredBytesHaveNoInfluence : Prop :=
  ∀ ext m (ir a b a' b' : Byte), dispatch (Config.build ext) ir = some m →
    (m.format = .z → decode (Config.build ext) ir a b = decode (Config.build ext) ir a' b') ∧
    (m.format = .r → decode (Config.build ext) ir a b = decode (Config.build ext) ir a b')

/-- Q13 and rule R56: both builds run every cycle alike whose opcode byte is not one of the extension's four; on those four the
build without the extension halts with UnknownOpcode. -/
def Obligations.BuildsDifferOnlyInExtensionBytes : Prop :=
  ∀ s : State,
    (s.mem.read s.pc.toNat ∉ [0xA7, 0x54, 0x55, 0x56] → cycle (Config.build true) s = cycle (Config.build false) s) ∧
    (s.running = true → s.pc.toNat ≤ 253 → s.mem.read s.pc.toNat ∈ [0xA7, 0x54, 0x55, 0x56] →
      ∃ t, cycle (Config.build false) s = .next t ∧ StoppedAs s t .unknownOpcode (s.mem.read s.pc.toNat).toNat)

/-! ### The instructions -/

/-- Rule R90: LDI, every form. -/
def Obligations.LdiWritesItsImmediate : Prop :=
  (∀ ext a imm, decode (Config.build ext) 0x82 a imm = .ok (.ldi a imm)) ∧
  (∀ (s : State) (r : Reg) (imm : Byte), s.pc.toNat ≤ 253 →
    ∃ t, exec (.ldi r.index imm) s = .next t ∧ t.getReg r = imm ∧ t.pc.toNat = s.pc.toNat + 3 ∧
      RegsKept [r] s t ∧ CellsKept [] s t ∧ t.fl = s.fl ∧ t.out = s.out ∧ StatusKept s t) ∧
  (∀ (s : State) (a imm : Byte), 7 < a.toNat →
    ∃ t, exec (.ldi a imm) s = .next t ∧ StoppedAs s t .invalidRegister a.toNat)

/-- Rule R91: PRN, every form. -/
def Obligations.PrnEmitsTheRegister : Prop :=
  (∀ ext a b, decode (Config.build ext) 0x47 a b = .ok (.prn a)) ∧
  (∀ (s : State) (r : Reg), s.pc.toNat ≤ 253 →
    ∃ t, exec (.prn r.index) s = .next t ∧ t.out = s.out ++ [s.getReg r] ∧ t.pc.toNat = s.pc.toNat + 2 ∧
      RegsKept [] s t ∧ CellsKept [] s t ∧ t.fl = s.fl ∧ StatusKept s t) ∧
  (∀ (s : State) (a : Byte), 7 < a.toNat → ∃ t, exec (.prn a) s = .next t ∧ StoppedAs s t .invalidRegister a.toNat)

/-- Rules R101 and R105: ADD, every form. The byte 0xA0 is the spec's supply (log entry 2). -/
def Obligations.AddWritesTheSumModulo256 : Prop :=
  (∀ ext a b, decode (Config.build ext) 0xA0 a b = .ok (.add a b)) ∧
  (∀ (s : State) (ra rb : Reg), s.pc.toNat ≤ 253 →
    ∃ t, exec (.add ra.index rb.index) s = .next t ∧
      (t.getReg ra).toNat = ((s.getReg ra).toNat + (s.getReg rb).toNat) % 256 ∧ t.pc.toNat = s.pc.toNat + 3 ∧
      RegsKept [ra] s t ∧ CellsKept [] s t ∧ t.fl = s.fl ∧ t.out = s.out ∧ StatusKept s t) ∧
  (∀ (s : State) (a b : Byte), 7 < a.toNat → ∃ t, exec (.add a b) s = .next t ∧ StoppedAs s t .invalidRegister a.toNat) ∧
  (∀ (s : State) (ra : Reg) (b : Byte), 7 < b.toNat →
    ∃ t, exec (.add ra.index b) s = .next t ∧ StoppedAs s t .invalidRegister b.toNat)

/-- Rules R102 and R106: MUL, every form. The byte 0xA2 is the spec's supply (log entry 2). -/
def Obligations.MulWritesTheProductModulo256 : Prop :=
  (∀ ext a b, decode (Config.build ext) 0xA2 a b = .ok (.mul a b)) ∧
  (∀ (s : State) (ra rb : Reg), s.pc.toNat ≤ 253 →
    ∃ t, exec (.mul ra.index rb.index) s = .next t ∧
      (t.getReg ra).toNat = ((s.getReg ra).toNat * (s.getReg rb).toNat) % 256 ∧ t.pc.toNat = s.pc.toNat + 3 ∧
      RegsKept [ra] s t ∧ CellsKept [] s t ∧ t.fl = s.fl ∧ t.out = s.out ∧ StatusKept s t) ∧
  (∀ (s : State) (a b : Byte), 7 < a.toNat → ∃ t, exec (.mul a b) s = .next t ∧ StoppedAs s t .invalidRegister a.toNat) ∧
  (∀ (s : State) (ra : Reg) (b : Byte), 7 < b.toNat →
    ∃ t, exec (.mul ra.index b) s = .next t ∧ StoppedAs s t .invalidRegister b.toNat)

/-- Rule R107: CMP, every form, and its absence with `EXT_CMPJ = false`. The byte 0xA7 is the spec's supply (log entry 2); the flag
layout and the unsigned order are its decisions D3 and D12. -/
def Obligations.CmpWritesExactlyOneFlag : Prop :=
  (∀ a b, decode (Config.build true) 0xA7 a b = .ok (.cmp a b) ∧
    decode (Config.build false) 0xA7 a b = .error (.unknownOpcode 0xA7)) ∧
  (∀ (s : State) (ra rb : Reg), s.pc.toNat ≤ 253 →
    ∃ t, exec (.cmp ra.index rb.index) s = .next t ∧
      ((s.getReg ra).toNat < (s.getReg rb).toNat → t.fl = 0x04) ∧
      ((s.getReg rb).toNat < (s.getReg ra).toNat → t.fl = 0x02) ∧
      (s.getReg ra = s.getReg rb → t.fl = 0x01) ∧ t.pc.toNat = s.pc.toNat + 3 ∧
      RegsKept [] s t ∧ CellsKept [] s t ∧ t.out = s.out ∧ StatusKept s t) ∧
  (∀ (s : State) (a b : Byte), 7 < a.toNat → ∃ t, exec (.cmp a b) s = .next t ∧ StoppedAs s t .invalidRegister a.toNat) ∧
  (∀ (s : State) (ra : Reg) (b : Byte), 7 < b.toNat →
    ∃ t, exec (.cmp ra.index b) s = .next t ∧ StoppedAs s t .invalidRegister b.toNat)

/-- Rules R111 and R113: PUSH, every form. The address stored to is `pushAddress`, the decremented pointer. The byte 0x45 (log
entry 2) and the value that PUSH R7 stores (log entry 6) are the spec's own. -/
def Obligations.PushDecrementsThenStores : Prop :=
  (∀ ext a b, decode (Config.build ext) 0x45 a b = .ok (.push a)) ∧
  (∀ (s : State) (r : Reg), s.mem.wf → s.pc.toNat ≤ 253 → s.getReg .r7 ≠ 0x00 →
    ∃ t, exec (.push r.index) s = .next t ∧ (t.getReg .r7).toNat + 1 = (s.getReg .r7).toNat ∧
      (∀ p, pushAddress s = .ok p → p = t.getReg .r7 ∧
        t.mem.read p.toNat = (if r = .r7 then t.getReg .r7 else s.getReg r) ∧ CellsKept [p.toNat] s t) ∧
      (∃ p, pushAddress s = .ok p) ∧ t.pc.toNat = s.pc.toNat + 2 ∧
      RegsKept [.r7] s t ∧ t.fl = s.fl ∧ t.out = s.out ∧ StatusKept s t) ∧
  (∀ (s : State) (r : Reg), s.getReg .r7 = 0x00 →
    ∃ t, exec (.push r.index) s = .next t ∧ StoppedAs s t .outOfBounds (-1)) ∧
  (∀ (s : State) (a : Byte), 7 < a.toNat → ∃ t, exec (.push a) s = .next t ∧ StoppedAs s t .invalidRegister a.toNat)

/-- Rules R112 and R114: POP, every form: into a register other than R7, into R7, the two limits and the bad index. The byte 0x46
(log entry 2), the limit 0xFF (decision D10) and the outcome of POP R7 (log entry 6) are the spec's own. -/
def Obligations.PopLoadsThenIncrements : Prop :=
  (∀ ext a b, decode (Config.build ext) 0x46 a b = .ok (.pop a)) ∧
  (∀ (s : State) (r : Reg), r ≠ .r7 → s.pc.toNat ≤ 253 → s.getReg .r7 ≠ 0xFF →
    ∃ t, exec (.pop r.index) s = .next t ∧ t.getReg r = s.mem.read (s.getReg .r7).toNat ∧
      (t.getReg .r7).toNat = (s.getReg .r7).toNat + 1 ∧ t.pc.toNat = s.pc.toNat + 2 ∧
      RegsKept [r, .r7] s t ∧ CellsKept [] s t ∧ t.fl = s.fl ∧ t.out = s.out ∧ StatusKept s t) ∧
  (∀ s : State, s.pc.toNat ≤ 253 → s.mem.read (s.getReg .r7).toNat ≠ 0xFF →
    ∃ t, exec (.pop (Reg.index .r7)) s = .next t ∧
      (t.getReg .r7).toNat = (s.mem.read (s.getReg .r7).toNat).toNat + 1 ∧ t.pc.toNat = s.pc.toNat + 2 ∧
      RegsKept [.r7] s t ∧ CellsKept [] s t ∧ t.fl = s.fl ∧ t.out = s.out ∧ StatusKept s t) ∧
  (∀ (s : State) (r : Reg), r ≠ .r7 → s.getReg .r7 = 0xFF →
    ∃ t, exec (.pop r.index) s = .next t ∧ StoppedAs s t .outOfBounds 256) ∧
  (∀ s : State, s.mem.read (s.getReg .r7).toNat = 0xFF →
    ∃ t, exec (.pop (Reg.index .r7)) s = .next t ∧ StoppedAs s t .outOfBounds 256) ∧
  (∀ (s : State) (a : Byte), 7 < a.toNat → ∃ t, exec (.pop a) s = .next t ∧ StoppedAs s t .invalidRegister a.toNat)

/-- Rule R120: CALL, every form. The address stored to is `pushAddress`, the decremented pointer. The byte 0x50 (log entry 2) and
the target of CALL R7 (log entry 6) are the spec's own. -/
def Obligations.CallPushesReturnAddressAndJumps : Prop :=
  (∀ ext a b, decode (Config.build ext) 0x50 a b = .ok (.call a)) ∧
  (∀ (s : State) (r : Reg), s.mem.wf → s.pc.toNat ≤ 253 → s.getReg .r7 ≠ 0x00 →
    ∃ t, exec (.call r.index) s = .next t ∧ (t.getReg .r7).toNat + 1 = (s.getReg .r7).toNat ∧
      (∀ p, pushAddress s = .ok p → p = t.getReg .r7 ∧
        (t.mem.read p.toNat).toNat = s.pc.toNat + 2 ∧ CellsKept [p.toNat] s t) ∧
      (∃ p, pushAddress s = .ok p) ∧
      t.pc.toNat = (if r = .r7 then t.getReg .r7 else s.getReg r).toNat ∧
      RegsKept [.r7] s t ∧ t.fl = s.fl ∧ t.out = s.out ∧ StatusKept s t) ∧
  (∀ (s : State) (r : Reg), s.getReg .r7 = 0x00 →
    ∃ t, exec (.call r.index) s = .next t ∧ StoppedAs s t .outOfBounds (-1)) ∧
  (∀ (s : State) (a : Byte), 7 < a.toNat → ∃ t, exec (.call a) s = .next t ∧ StoppedAs s t .invalidRegister a.toNat)

/-- Rule R121: RET, both outcomes. The byte 0x11 (log entry 2) and the limit 0xFF (decision D10) are the spec's own. -/
def Obligations.RetPopsTheProgramCounter : Prop :=
  (∀ ext a b, decode (Config.build ext) 0x11 a b = .ok .ret) ∧
  (∀ s : State, s.getReg .r7 ≠ 0xFF →
    ∃ t, exec .ret s = .next t ∧ t.pc.toNat = (s.mem.read (s.getReg .r7).toNat).toNat ∧
      (t.getReg .r7).toNat = (s.getReg .r7).toNat + 1 ∧
      RegsKept [.r7] s t ∧ CellsKept [] s t ∧ t.fl = s.fl ∧ t.out = s.out ∧ StatusKept s t) ∧
  (∀ s : State, s.getReg .r7 = 0xFF → ∃ t, exec .ret s = .next t ∧ StoppedAs s t .outOfBounds 256)

/-- Rule R122: JMP, every form, and its absence with `EXT_CMPJ = false`. The byte 0x54 is the spec's supply (log entry 2). -/
def Obligations.JmpRedirectsAlways : Prop :=
  (∀ a b, decode (Config.build true) 0x54 a b = .ok (.jmp a) ∧
    decode (Config.build false) 0x54 a b = .error (.unknownOpcode 0x54)) ∧
  (∀ (s : State) (r : Reg), ∃ t, exec (.jmp r.index) s = .next t ∧ t.pc.toNat = (s.getReg r).toNat ∧
    RegsKept [] s t ∧ CellsKept [] s t ∧ t.fl = s.fl ∧ t.out = s.out ∧ StatusKept s t) ∧
  (∀ (s : State) (a : Byte), 7 < a.toNat → ∃ t, exec (.jmp a) s = .next t ∧ StoppedAs s t .invalidRegister a.toNat)

/-- Rule R123: JEQ, every form, and its absence with `EXT_CMPJ = false`. The byte 0x55 is the spec's supply (log entry 2); the
not-taken advance and the check when not taken are its decision D13. -/
def Obligations.JeqRedirectsWhenEqual : Prop :=
  (∀ a b, decode (Config.build true) 0x55 a b = .ok (.jeq a) ∧
    decode (Config.build false) 0x55 a b = .error (.unknownOpcode 0x55)) ∧
  (∀ (s : State) (r : Reg), s.pc.toNat ≤ 253 → ∃ t, exec (.jeq r.index) s = .next t ∧
    (s.fl.getLsbD 0 = true → t.pc.toNat = (s.getReg r).toNat) ∧
    (s.fl.getLsbD 0 = false → t.pc.toNat = s.pc.toNat + 2) ∧
    RegsKept [] s t ∧ CellsKept [] s t ∧ t.fl = s.fl ∧ t.out = s.out ∧ StatusKept s t) ∧
  (∀ (s : State) (a : Byte), 7 < a.toNat → ∃ t, exec (.jeq a) s = .next t ∧ StoppedAs s t .invalidRegister a.toNat)

/-- Rule R124: JNE, every form, and its absence with `EXT_CMPJ = false`. The byte 0x56 is the spec's supply (log entry 2); the
not-taken advance and the check when not taken are its decision D13. -/
def Obligations.JneRedirectsWhenNotEqual : Prop :=
  (∀ a b, decode (Config.build true) 0x56 a b = .ok (.jne a) ∧
    decode (Config.build false) 0x56 a b = .error (.unknownOpcode 0x56)) ∧
  (∀ (s : State) (r : Reg), s.pc.toNat ≤ 253 → ∃ t, exec (.jne r.index) s = .next t ∧
    (s.fl.getLsbD 0 = false → t.pc.toNat = (s.getReg r).toNat) ∧
    (s.fl.getLsbD 0 = true → t.pc.toNat = s.pc.toNat + 2) ∧
    RegsKept [] s t ∧ CellsKept [] s t ∧ t.fl = s.fl ∧ t.out = s.out ∧ StatusKept s t) ∧
  (∀ (s : State) (a : Byte), 7 < a.toNat → ∃ t, exec (.jne a) s = .next t ∧ StoppedAs s t .invalidRegister a.toNat)

/-- Rule R76: HLT: the handler stops the machine and changes nothing else; a cycle that fetches 0x01 at `pc0 <= 253` records
{HLT, pc0, 0x01, 0}, after which no cycle runs; at 254 and above the fetch raises OutOfBounds instead. -/
def Obligations.HltStopsTheMachine : Prop :=
  (∀ ext a b, decode (Config.build ext) 0x01 a b = .ok .hlt) ∧
  (∀ s : State, ∃ t, exec .hlt s = .next t ∧ StoppedAs s t .hlt 0) ∧
  (∀ ext s, s.running = true → s.pc.toNat ≤ 253 → s.mem.read s.pc.toNat = 0x01 →
    ∃ t, cycle (Config.build ext) s = .next t ∧ StoppedAs s t .hlt 0 ∧
      t.halt = some { cause := .hlt, pc := s.pc, ir := some 0x01, info := 0 } ∧
      cycle (Config.build ext) t = .fault .halted) ∧
  (∀ ext s, s.running = true → 254 ≤ s.pc.toNat →
    ∃ t, cycle (Config.build ext) s = .next t ∧ HaltedBy t .outOfBounds)

/-! ### The components -/

/-- Rule R103: the comparison's outcome is the whole of `FL`: exactly one of L, G, E, by unsigned order (decisions D3, D12). -/
def Obligations.CompareSetsExactlyOneBit : Prop :=
  ∀ a b : Byte, ∃ v, alu .cmp a b = .ok v ∧ (a.toNat < b.toNat → v = 0x04) ∧ (b.toNat < a.toNat → v = 0x02) ∧
    (a = b → v = 0x01) ∧ (v.getLsbD 2, v.getLsbD 1, v.getLsbD 0) ∈
      [(true, false, false), (false, true, false), (false, false, true)]

/-- Rule R108 and Q10: the values of ADD and MUL commute, CMP gives E on equal bytes and swaps L and G with its operands, adding
0xFF subtracts one, and the corner results of the rule's table that are for every byte. -/
def Obligations.ArithmeticLawsHold : Prop :=
  (∀ a b : Byte, alu .add a b = alu .add b a) ∧ (∀ a b : Byte, alu .mul a b = alu .mul b a) ∧
  (∀ a : Byte, alu .cmp a a = .ok 0x01) ∧
  (∀ a b : Byte, alu .cmp a b = .ok 0x04 ↔ alu .cmp b a = .ok 0x02) ∧
  (∀ v w : Byte, alu .add v 0xFF = .ok w → w.toNat = (v.toNat + 255) % 256) ∧
  (∀ v : Byte, alu .mul v 0x00 = .ok 0x00 ∧ alu .mul v 0x01 = .ok v)

/-- Rules R104 and R134: an ALU operation other than ADD, MUL and CMP raises UnsupportedOperation, and no cycle of either build
ever records that cause. -/
def Obligations.UnsupportedOperationIsUnreachable : Prop :=
  (∀ a b : Byte, alu .other a b = .error .unsupportedOperation) ∧
  (∀ ext s t, s.halt = none → cycle (Config.build ext) s = .next t → ¬HaltedBy t .unsupportedOperation)

/-- Rules R31 and R32: Memory's read and write over every integer address: in range, the cell and only the cell; out of range,
OutOfBounds with the address, which never wraps. That a write keeps the canonical form is the model's choice of representation
(log entry 4) and in neither rule. -/
def Obligations.MemoryKeepsItsContract : Prop :=
  ∀ (s : State) (addr : Int) (v : Byte), s.mem.wf →
    (0 ≤ addr → addr ≤ 255 → s.memRead addr = .ok (s.mem.read addr.toNat) ∧
      ∃ t, s.memWrite addr v = .ok t ∧ t.mem.read addr.toNat = v ∧ CellsKept [addr.toNat] s t ∧
        t = { s with mem := t.mem } ∧ t.mem.wf) ∧
    (addr < 0 ∨ 255 < addr → s.memRead addr = .error (.outOfBounds addr) ∧
      s.memWrite addr v = .error (.outOfBounds addr))

/-- The list of cells is a faithful form of the 256 cells (the model's own choice, log entry 4): two canonical memories that read
alike at every address are equal. -/
def Obligations.CanonicalMemoryIsWhatItReads : Prop :=
  ∀ m m' : Memory, m.wf → m'.wf → (∀ a, a < 256 → m.read a = m'.read a) → m = m'

/-- Rule R12: the register file: an operand byte of 0 to 7 selects a register, each its own, any other byte is InvalidRegister
with that byte, never masked; a `set` is what every later `get` of that register answers, and no other register changes. -/
def Obligations.RegisterFileKeepsItsContract : Prop :=
  (∀ a : Byte, a.toNat ≤ 7 → ∃ r, checkReg a = .ok r ∧ r.index = a) ∧
  (∀ (a b : Byte) (r : Reg), checkReg a = .ok r → checkReg b = .ok r → a = b) ∧
  (∀ a : Byte, 7 < a.toNat → checkReg a = .error (.invalidRegister a)) ∧
  (∀ (s : State) (r : Reg) (v : Byte), (s.setReg r v).getReg r = v ∧ RegsKept [r] s (s.setReg r v))

/-! ### Conditions -/

/-- Rules R131 and R135: a cycle that leaves Running changes nothing but `running` and `halt`, and the halt record tells its cause
as the table of rule R131 has it; a cycle that stays in Running writes no halt record. The premise `pc <= 256` is an invariant
(StepKeepsInvariant). -/
def Obligations.HaltsArePreciseAndRecorded : Prop :=
  ∀ ext s t, s.halt = none → s.pc.toNat ≤ 256 → cycle (Config.build ext) s = .next t →
    (t.running = true → t.halt = none) ∧
    (t.running = false → ∃ k n, StoppedAs s t k n ∧
      match k with
      | .hlt => n = 0 ∧ fetchedOpcode s = some 0x01
      | .unknownOpcode => ∃ ir : Byte, fetchedOpcode s = some ir ∧ n = ir.toNat ∧ dispatch (Config.build ext) ir = none
      | .outOfBounds => n = 256 ∨ n = -1
      | .invalidRegister => 8 ≤ n ∧ n ≤ 255 ∧ fetchedOpcode s ≠ none
      | .unsupportedOperation => False)

/-- Rule R137: the conditions of a cycle in their order: the fetch, the opcode, `operand_a`, `operand_b`, the lower stack limit, the
upper stack limit (decisions D8 to D10). Each clause holds whatever a later one would have raised. -/
def Obligations.ConditionsComeInOrder : Prop :=
  ∀ ext s, s.running = true → s.pc.toNat ≤ 256 →
    (254 ≤ s.pc.toNat → ∃ t, cycle (Config.build ext) s = .next t ∧ StoppedAs s t .outOfBounds 256) ∧
    (s.pc.toNat ≤ 253 → dispatch (Config.build ext) (s.mem.read s.pc.toNat) = none →
      ∃ t, cycle (Config.build ext) s = .next t ∧ StoppedAs s t .unknownOpcode (s.mem.read s.pc.toNat).toNat) ∧
    (∀ i a rest, Runs (Config.build ext) s i → registerOperands i = a :: rest → 7 < a.toNat →
      ∃ t, cycle (Config.build ext) s = .next t ∧ StoppedAs s t .invalidRegister a.toNat) ∧
    (∀ i a b, Runs (Config.build ext) s i → registerOperands i = [a, b] → a.toNat ≤ 7 → 7 < b.toNat →
      ∃ t, cycle (Config.build ext) s = .next t ∧ StoppedAs s t .invalidRegister b.toNat) ∧
    (∀ r : Reg, Runs (Config.build ext) s (.push r.index) ∨ Runs (Config.build ext) s (.call r.index) →
      s.getReg .r7 = 0x00 → ∃ t, cycle (Config.build ext) s = .next t ∧ StoppedAs s t .outOfBounds (-1)) ∧
    (∀ r : Reg, Runs (Config.build ext) s (.pop r.index) →
      (if r = .r7 then s.mem.read (s.getReg .r7).toNat else s.getReg .r7) = 0xFF →
      ∃ t, cycle (Config.build ext) s = .next t ∧ StoppedAs s t .outOfBounds 256) ∧
    (Runs (Config.build ext) s .ret → s.getReg .r7 = 0xFF →
      ∃ t, cycle (Config.build ext) s = .next t ∧ StoppedAs s t .outOfBounds 256)

/-- Rule R132: OutOfBounds "is raised in exactly these situations, and in no other": the fetch at 254 and above, PUSH and CALL at
R7 = 0, POP and RET at R7 = 0xFF, POP R7 of a loaded 0xFF. -/
def Obligations.OutOfBoundsExactlyInItsSituations : Prop :=
  ∀ ext s t, s.halt = none → cycle (Config.build ext) s = .next t →
    (HaltedBy t .outOfBounds ↔
      254 ≤ s.pc.toNat ∨
      (∃ r : Reg, (Runs (Config.build ext) s (.push r.index) ∨ Runs (Config.build ext) s (.call r.index)) ∧
        s.getReg .r7 = 0x00) ∨
      (∃ r : Reg, Runs (Config.build ext) s (.pop r.index) ∧
        (if r = .r7 then s.mem.read (s.getReg .r7).toNat else s.getReg .r7) = 0xFF) ∨
      (Runs (Config.build ext) s .ret ∧ s.getReg .r7 = 0xFF))

/-- Rule R133: InvalidRegister is raised exactly when an operand byte that the instruction's format declares a register index is
greater than 7, with the first such byte as `info`. -/
def Obligations.InvalidRegisterExactlyOnBadIndex : Prop :=
  ∀ ext s t, s.halt = none → cycle (Config.build ext) s = .next t →
    (HaltedBy t .invalidRegister ↔
      ∃ i, Runs (Config.build ext) s i ∧ ∃ a ∈ registerOperands i, 7 < a.toNat) ∧
    (∀ i a, Runs (Config.build ext) s i → (registerOperands i).find? (fun x => 7 < x.toNat) = some a →
      StoppedAs s t .invalidRegister a.toNat)

/-- Rules R76 and R136: a run ends normally exactly when the cycle fetched a HLT byte with two fetchable bytes after it. -/
def Obligations.NormalEndExactlyAtHlt : Prop :=
  ∀ ext s t, s.halt = none → cycle (Config.build ext) s = .next t →
    (EndsNormally t ↔ s.pc.toNat ≤ 253 ∧ s.mem.read s.pc.toNat = 0x01)

/-! ### The whole machine -/

/-- Rule R15: the new `pc` of every instruction that leaves the machine Running, and that a halt leaves `pc` at `pc0`. CALL reads
its target after the push, so from the registers it leaves. -/
def Obligations.PcMovesByTheTable : Prop :=
  ∀ ext s t i, Runs (Config.build ext) s i → exec i s = .next t →
    (t.running = false → t.pc = s.pc) ∧
    (t.running = true →
      match i with
      | .hlt => False
      | .ret => t.pc.toNat = (s.mem.read (s.getReg .r7).toNat).toNat
      | .push _ => t.pc.toNat = s.pc.toNat + 2
      | .pop _ => t.pc.toNat = s.pc.toNat + 2
      | .prn _ => t.pc.toNat = s.pc.toNat + 2
      | .call a => ∃ r : Reg, a = r.index ∧ t.pc.toNat = (t.getReg r).toNat
      | .jmp a => ∃ r : Reg, a = r.index ∧ t.pc.toNat = (s.getReg r).toNat
      | .jeq a => ∃ r : Reg, a = r.index ∧
          t.pc.toNat = if s.fl.getLsbD 0 then (s.getReg r).toNat else s.pc.toNat + 2
      | .jne a => ∃ r : Reg, a = r.index ∧
          t.pc.toNat = if s.fl.getLsbD 0 then s.pc.toNat + 2 else (s.getReg r).toNat
      | .ldi _ _ => t.pc.toNat = s.pc.toNat + 3
      | .add _ _ => t.pc.toNat = s.pc.toNat + 3
      | .mul _ _ => t.pc.toNat = s.pc.toNat + 3
      | .cmp _ _ => t.pc.toNat = s.pc.toNat + 3)

/-- Q6 and rule R19: a cycle emits at most one byte, and emits one exactly when it runs a PRN of a register that exists. -/
def Obligations.OutputGrowsOnlyByPrn : Prop :=
  ∀ ext s t, cycle (Config.build ext) s = .next t →
    (t.out = s.out ∧ ¬(∃ r : Reg, Runs (Config.build ext) s (.prn r.index))) ∨
    (∃ r : Reg, Runs (Config.build ext) s (.prn r.index) ∧ t.out = s.out ++ [s.getReg r])

/-- Q7 and rules R16, R163: `FL` changes only at a CMP that completes, which leaves one of 0x04, 0x02, 0x01. -/
def Obligations.FlagsChangeOnlyAtCmp : Prop :=
  ∀ ext s t, cycle (Config.build ext) s = .next t →
    (t.fl = s.fl ∧ ¬(∃ ra rb : Reg, Runs (Config.build ext) s (.cmp ra.index rb.index))) ∨
    (∃ ra rb : Reg, Runs (Config.build ext) s (.cmp ra.index rb.index) ∧ (t.fl = 0x04 ∨ t.fl = 0x02 ∨ t.fl = 0x01))

/-- Q4 and rule R34: a cycle changes at most the one cell at the decremented stack pointer, and only when it runs PUSH or CALL. -/
def Obligations.OnlyPushAndCallStore : Prop :=
  ∀ ext s t, s.mem.wf → cycle (Config.build ext) s = .next t → ∀ a, t.mem.read a ≠ s.mem.read a →
    (∃ r : Reg, Runs (Config.build ext) s (.push r.index) ∨ Runs (Config.build ext) s (.call r.index)) ∧
    ∃ p : Byte, pushAddress s = .ok p ∧ a = p.toNat

/-- Q5 and rules R110, R159: a register changes only as the destination of LDI, ADD, MUL or POP, or as the stack pointer: R7 goes
down by one at PUSH and CALL and up by one at POP and RET. -/
def Obligations.RegistersChangeOnlyAsNamed : Prop :=
  ∀ ext s t r, cycle (Config.build ext) s = .next t → t.getReg r ≠ s.getReg r →
    (∃ imm, Runs (Config.build ext) s (.ldi r.index imm)) ∨
    (∃ b, Runs (Config.build ext) s (.add r.index b) ∨ Runs (Config.build ext) s (.mul r.index b)) ∨
    Runs (Config.build ext) s (.pop r.index) ∨
    (r = .r7 ∧ (∃ a, Runs (Config.build ext) s (.push a) ∨ Runs (Config.build ext) s (.call a)) ∧
      (t.getReg .r7).toNat + 1 = (s.getReg .r7).toNat) ∨
    (r = .r7 ∧ ((∃ a, Runs (Config.build ext) s (.pop a)) ∨ Runs (Config.build ext) s .ret) ∧
      (t.getReg .r7).toNat = (s.getReg .r7).toNat + 1)

/-- Rule R23: every step of either build keeps the invariant: canonical Memory within 256 cells, `pc <= 256`, `FL` one of 0x00,
0x01, 0x02, 0x04, a halt record exactly when Halted, and that record the one its cause asks for. -/
def Obligations.StepKeepsInvariant : Prop :=
  (∀ ext (s t : State), s.Inv → cycle (Config.build ext) s = .next t → t.Inv) ∧
  (∀ s t : State, s.Inv → step s = .next t → t.Inv)

/-- Rules R23 and R78: every state of every run of either build meets the invariant, from every launch. -/
def Obligations.ReachableStatesMeetInvariant : Prop :=
  ∀ ext s, Reachable (Config.build ext) s → s.Inv

/-- Q12: without the extension `FL` is 0x00 in every reachable state. -/
def Obligations.FlagsStayZeroWithoutExtension : Prop :=
  ∀ s, Reachable (Config.build false) s → s.fl = 0x00

/-! ### Two cycles and more -/

/-- Rule R115 and Q8: PUSH r and then POP r' give r' the value of r and put the stack pointer back, for r and r' other than R7,
R7 at least 1, and a push that does not land on the POP. -/
def Obligations.PushThenPopRestores : Prop :=
  ∀ ext (s : State) (r r' : Reg), s.mem.wf → r ≠ .r7 → r' ≠ .r7 → s.getReg .r7 ≠ 0x00 → s.pc.toNat ≤ 251 →
    (s.getReg .r7).toNat ≠ s.pc.toNat + 3 → (s.getReg .r7).toNat ≠ s.pc.toNat + 4 →
    Runs (Config.build ext) s (.push r.index) →
    s.mem.read (s.pc.toNat + 2) = 0x46 → s.mem.read (s.pc.toNat + 3) = r'.index →
    ∃ t u, cycle (Config.build ext) s = .next t ∧ cycle (Config.build ext) t = .next u ∧
      u.getReg r' = s.getReg r ∧ u.getReg .r7 = s.getReg .r7 ∧ u.pc.toNat = s.pc.toNat + 4 ∧
      RegsKept [r'] s u ∧ u.mem.read ((s.getReg .r7).toNat - 1) = s.getReg r

/-- Rule R127: a RET that finds R7 and the cell it points at as the CALL left them resumes after the CALL's operand, with the stack
pointer as it was before the CALL; what ran between the two does not matter. -/
def Obligations.CallThenReturnResumes : Prop :=
  ∀ ext (s t u : State) (r : Reg), s.mem.wf → s.getReg .r7 ≠ 0x00 → Runs (Config.build ext) s (.call r.index) →
    cycle (Config.build ext) s = .next t → Runs (Config.build ext) u .ret → u.getReg .r7 = t.getReg .r7 →
    u.mem.read (u.getReg .r7).toNat = t.mem.read (t.getReg .r7).toNat →
    ∃ v, cycle (Config.build ext) u = .next v ∧ v.pc.toNat = s.pc.toNat + 2 ∧ v.getReg .r7 = s.getReg .r7

/-- Q11: on the same `FL` and a register that exists, exactly one of JEQ and JNE is taken: one goes to the register's value, the
other falls through. -/
def Obligations.EqualJumpsAreComplements : Prop :=
  ∀ (s : State) (r : Reg), s.pc.toNat ≤ 253 → ∃ t u, exec (.jeq r.index) s = .next t ∧ exec (.jne r.index) s = .next u ∧
    ((t.pc.toNat = (s.getReg r).toNat ∧ u.pc.toNat = s.pc.toNat + 2) ∨
     (t.pc.toNat = s.pc.toNat + 2 ∧ u.pc.toNat = (s.getReg r).toNat))

/-- Rule R122 and R78: a JMP to its own address is an endless loop: after any number of steps the machine is in the same state. -/
def Obligations.JumpToItselfNeverHalts : Prop :=
  ∀ (k : Nat) (s : State) (r : Reg), Runs (Config.build true) s (.jmp r.index) → (s.getReg r).toNat = s.pc.toNat →
    run (Config.build true) k s = .next s

/-- Rule R43: a store is seen by the fetch of the very next cycle: a PUSH onto the next instruction's opcode byte is what is
fetched, and CALL R7 fetches the return address it has just stored. -/
def Obligations.StoreIsSeenByTheNextFetch : Prop :=
  (∀ ext (s : State) (r : Reg), s.mem.wf → Runs (Config.build ext) s (.push r.index) → s.pc.toNat ≤ 251 →
    (s.getReg .r7).toNat = s.pc.toNat + 3 →
    ∃ t f, cycle (Config.build ext) s = .next t ∧ fetch t = .ok f ∧ f.ir = t.mem.read (t.getReg .r7).toNat ∧
      (r ≠ .r7 → f.ir = s.getReg r)) ∧
  (∀ ext (s : State), s.mem.wf → Runs (Config.build ext) s (.call (Reg.index .r7)) → s.getReg .r7 ≠ 0x00 →
    (s.getReg .r7).toNat ≤ 254 →
    ∃ t f, cycle (Config.build ext) s = .next t ∧ fetch t = .ok f ∧ f.ir.toNat = s.pc.toNat + 2)

/-! ### The host's side -/

/-- The model's interface (log entry 9): an opcode-table word placed by `withFetchWord` is the instruction the very next step runs,
and in a Running state that can fetch only the three fetched cells change. -/
def Obligations.PlacedWordIsTheNextInstruction : Prop :=
  ∀ (s : State) (nbits w : Nat), s.mem.wf →
    (∀ i, decodeTableWord nbits w = some i → step (s.withFetchWord nbits w) = exec i (s.withFetchWord nbits w)) ∧
    (s.running = true → s.pc.toNat ≤ 253 →
      s.withFetchWord nbits w = { s with mem := (s.withFetchWord nbits w).mem } ∧
      CellsKept [s.pc.toNat, s.pc.toNat + 1, s.pc.toNat + 2] s (s.withFetchWord nbits w))

/-- Rule R62: a byte sequence written as an object file reads back as that sequence. -/
def Obligations.ObjectFileReadsBack : Prop :=
  ∀ p : List Byte, objectBytes (objectFile p) = some p

/-- Rule R92: each emitted byte is shown on a line of its own as its decimal numeral: digits 0 to 9, most significant first, no
leading zero, a single 0 for zero. -/
def Obligations.OutputIsShownInDecimal : Prop :=
  (∀ out : List Byte, (renderOut out).length = out.length ∧
    ∀ (k : Nat) (v : Byte), out[k]? = some v → (renderOut out)[k]? = some ((decimalDigits v).map Nat.digitChar)) ∧
  (∀ v : Byte, (decimalDigits v).foldl (fun n d => 10 * n + d) 0 = v.toNat ∧ (∀ d ∈ decimalDigits v, d < 10) ∧
    decimalDigits v ≠ [] ∧ ((decimalDigits v).head? = some 0 → decimalDigits v = [0]))

/-- Rule R147: the trace observer samples `pc`, the three bytes the next cycle fetches and all eight registers. -/
def Obligations.TraceSamplesTheNextFetch : Prop :=
  ∀ s : State, s.pc.toNat ≤ 253 →
    ∃ f, fetch s = .ok f ∧ traceSample s = { pc := s.pc, m0 := some f.ir, m1 := some f.a, m2 := some f.b, regs := s.regs }

/-- Rule R131: the numeric cause codes, 0 while there is no halt record (decision D15). -/
def Obligations.StatusCodesFollowTheTable : Prop :=
  (∀ s : State, s.halt = none → statusCode s = 0) ∧
  (∀ (s : State) (h : HaltRecord), s.halt = some h →
    statusCode s = match h.cause with
      | .hlt => 1
      | .unknownOpcode => 2
      | .outOfBounds => 3
      | .invalidRegister => 4
      | .unsupportedOperation => 5)

/-! ### The parameters -/

/-- The table of rule R4 in both builds, and that each parameter is the one the machine has: the types' sizes, the legal register
operands, the stack pointer, the valid addresses, the bytes of a fetch, the stack limits, the codes of the status interface. Ten
of the opcode bytes are the spec's supply (log entry 2). -/
def Obligations.ParametersAreThoseOfTheTable : Prop :=
  (∀ ext, let c := Config.build ext
    c.xlen = 8 ∧ c.nreg = 8 ∧ c.spIndex = 7 ∧ c.memSize = 256 ∧ c.spReset = 0xF4 ∧ c.pcReset = 0 ∧ c.loadBase = 0 ∧
    c.pcWidth = 9 ∧ c.flWidth = 8 ∧ c.flBitL = 2 ∧ c.flBitG = 1 ∧ c.flBitE = 0 ∧ c.flReset = 0x00 ∧ c.extCmpj = ext ∧
    Mnemonic.all.map c.opcode = [0x01, 0x11, 0x45, 0x46, 0x47, 0x50, 0x54, 0x55, 0x56, 0x82, 0xA0, 0xA2, 0xA7] ∧
    [none, some .hlt, some .unknownOpcode, some .outOfBounds, some .invalidRegister, some .unsupportedOperation].map
      c.causeCode = [0, 1, 2, 3, 4, 5] ∧
    c.fetchBytes = 3 ∧ c.spMin = 0x00 ∧ c.spMax = 0xFF) ∧
  (∀ ext, let c := Config.build ext
    (∀ n, (∃ v : Byte, v.toNat = n) ↔ n < 2 ^ c.xlen) ∧ (∀ n, (∃ v : PcWord, v.toNat = n) ↔ n < 2 ^ c.pcWidth) ∧
    (∀ n, (∃ v : FlByte, v.toNat = n) ↔ n < 2 ^ c.flWidth) ∧
    (∀ a : Byte, (∃ r, checkReg a = .ok r) ↔ a.toNat < c.nreg) ∧
    (∀ s : State, s.sp = s.getReg .r7) ∧ (Reg.index .r7).toNat = c.spIndex ∧
    (∀ (s : State) (addr : Int), (∃ v, s.memRead addr = .ok v) ↔ 0 ≤ addr ∧ addr < c.memSize) ∧
    (∀ s : State, (∃ f, fetch s = .ok f) ↔ s.pc.toNat + c.fetchBytes ≤ c.memSize) ∧
    (∀ s : State, (∃ t, stackReserve s = .ok t) ↔ s.getReg .r7 ≠ c.spMin) ∧
    (∀ s : State, (∃ t, stackRelease s = .ok t) ↔ s.getReg .r7 ≠ c.spMax) ∧
    (∀ s : State, statusCode s = c.causeCode (s.halt.map (·.cause))))
end

