-- ==== Sys2Proof/Laws/Config.lean ====
section
/-! SUPPORT. The parameters of rule R4 as simp lemmas, so that no later proof unfolds the record. -/

namespace Sys2Proof

/-! ### The record the handlers read -/

@[simp] theorem Config.core_xlen : Config.core.xlen = 8 := rfl
@[simp] theorem Config.core_nreg : Config.core.nreg = 8 := rfl
@[simp] theorem Config.core_spIndex : Config.core.spIndex = 7 := rfl
@[simp] theorem Config.core_memSize : Config.core.memSize = 256 := rfl
@[simp] theorem Config.core_pcReset : Config.core.pcReset = 0 := rfl
@[simp] theorem Config.core_flBitL : Config.core.flBitL = 2 := rfl
@[simp] theorem Config.core_flBitG : Config.core.flBitG = 1 := rfl
@[simp] theorem Config.core_flBitE : Config.core.flBitE = 0 := rfl
@[simp] theorem Config.core_causeCode : Config.core.causeCode = Sys2Proof.causeCode := rfl
@[simp] theorem Config.core_fetchBytes : Config.core.fetchBytes = 3 := rfl
@[simp] theorem Config.core_spMin : Config.core.spMin = 0 := rfl
@[simp] theorem Config.core_spMax : Config.core.spMax = 0xFF := rfl

/-! ### Either build -/

@[simp] theorem Config.build_extCmpj (ext : Bool) : (Config.build ext).extCmpj = ext := rfl
@[simp] theorem Config.build_opcode (ext : Bool) : (Config.build ext).opcode = opcodeByte := rfl
@[simp] theorem Config.build_memSize (ext : Bool) : (Config.build ext).memSize = 256 := rfl
@[simp] theorem Config.build_loadBase (ext : Bool) : (Config.build ext).loadBase = 0 := rfl

/-- The two builds differ in `EXT_CMPJ` alone (rule R4). -/
theorem Config.build_eq (ext : Bool) : Config.build ext = { Config.core with extCmpj := ext } := rfl

end Sys2Proof
end

