-- ==== Sys2Proof/Laws/State.lean ====
section
/-! SUPPORT. The small lemmas of State: one per field per update, and the laws of the Register File. -/

namespace Sys2Proof.Machine

/-! ### `setReg` -/

@[simp] theorem setReg_mem (s : State) (r : Reg) (v : Byte) : (s.setReg r v).mem = s.mem := rfl
@[simp] theorem setReg_pc (s : State) (r : Reg) (v : Byte) : (s.setReg r v).pc = s.pc := rfl
@[simp] theorem setReg_fl (s : State) (r : Reg) (v : Byte) : (s.setReg r v).fl = s.fl := rfl
@[simp] theorem setReg_running (s : State) (r : Reg) (v : Byte) : (s.setReg r v).running = s.running := rfl
@[simp] theorem setReg_halt (s : State) (r : Reg) (v : Byte) : (s.setReg r v).halt = s.halt := rfl
@[simp] theorem setReg_out (s : State) (r : Reg) (v : Byte) : (s.setReg r v).out = s.out := rfl

/-! ### `advance`, `redirect` -/

@[simp] theorem advance_mem (s : State) (n : Nat) : (s.advance n).mem = s.mem := rfl
@[simp] theorem advance_regs (s : State) (n : Nat) : (s.advance n).regs = s.regs := rfl
@[simp] theorem advance_pc (s : State) (n : Nat) : (s.advance n).pc = s.pc + BitVec.ofNat 9 n := rfl
@[simp] theorem advance_fl (s : State) (n : Nat) : (s.advance n).fl = s.fl := rfl
@[simp] theorem advance_running (s : State) (n : Nat) : (s.advance n).running = s.running := rfl
@[simp] theorem advance_halt (s : State) (n : Nat) : (s.advance n).halt = s.halt := rfl
@[simp] theorem advance_out (s : State) (n : Nat) : (s.advance n).out = s.out := rfl
@[simp] theorem advance_getReg (s : State) (n : Nat) (r : Reg) : (s.advance n).getReg r = s.getReg r := rfl

@[simp] theorem redirect_mem (s : State) (v : Byte) : (s.redirect v).mem = s.mem := rfl
@[simp] theorem redirect_regs (s : State) (v : Byte) : (s.redirect v).regs = s.regs := rfl
@[simp] theorem redirect_pc (s : State) (v : Byte) : (s.redirect v).pc = v.setWidth 9 := rfl
@[simp] theorem redirect_fl (s : State) (v : Byte) : (s.redirect v).fl = s.fl := rfl
@[simp] theorem redirect_running (s : State) (v : Byte) : (s.redirect v).running = s.running := rfl
@[simp] theorem redirect_halt (s : State) (v : Byte) : (s.redirect v).halt = s.halt := rfl
@[simp] theorem redirect_out (s : State) (v : Byte) : (s.redirect v).out = s.out := rfl
@[simp] theorem redirect_getReg (s : State) (v : Byte) (r : Reg) : (s.redirect v).getReg r = s.getReg r := rfl

/-! ### `setFl`, `emit` -/

@[simp] theorem setFl_mem (s : State) (v : FlByte) : (s.setFl v).mem = s.mem := rfl
@[simp] theorem setFl_regs (s : State) (v : FlByte) : (s.setFl v).regs = s.regs := rfl
@[simp] theorem setFl_pc (s : State) (v : FlByte) : (s.setFl v).pc = s.pc := rfl
@[simp] theorem setFl_fl (s : State) (v : FlByte) : (s.setFl v).fl = v := rfl
@[simp] theorem setFl_running (s : State) (v : FlByte) : (s.setFl v).running = s.running := rfl
@[simp] theorem setFl_halt (s : State) (v : FlByte) : (s.setFl v).halt = s.halt := rfl
@[simp] theorem setFl_out (s : State) (v : FlByte) : (s.setFl v).out = s.out := rfl
@[simp] theorem setFl_getReg (s : State) (v : FlByte) (r : Reg) : (s.setFl v).getReg r = s.getReg r := rfl

@[simp] theorem emit_mem (s : State) (v : Byte) : (s.emit v).mem = s.mem := rfl
@[simp] theorem emit_regs (s : State) (v : Byte) : (s.emit v).regs = s.regs := rfl
@[simp] theorem emit_pc (s : State) (v : Byte) : (s.emit v).pc = s.pc := rfl
@[simp] theorem emit_fl (s : State) (v : Byte) : (s.emit v).fl = s.fl := rfl
@[simp] theorem emit_running (s : State) (v : Byte) : (s.emit v).running = s.running := rfl
@[simp] theorem emit_halt (s : State) (v : Byte) : (s.emit v).halt = s.halt := rfl
@[simp] theorem emit_out (s : State) (v : Byte) : (s.emit v).out = s.out ++ [v] := rfl
@[simp] theorem emit_getReg (s : State) (v : Byte) (r : Reg) : (s.emit v).getReg r = s.getReg r := rfl

/-! ### `haltWith`, `raise` -/

@[simp] theorem haltWith_mem (s : State) (k : Cause) (n : Int) : (s.haltWith k n).mem = s.mem := rfl
@[simp] theorem haltWith_regs (s : State) (k : Cause) (n : Int) : (s.haltWith k n).regs = s.regs := rfl
@[simp] theorem haltWith_pc (s : State) (k : Cause) (n : Int) : (s.haltWith k n).pc = s.pc := rfl
@[simp] theorem haltWith_fl (s : State) (k : Cause) (n : Int) : (s.haltWith k n).fl = s.fl := rfl
@[simp] theorem haltWith_running (s : State) (k : Cause) (n : Int) : (s.haltWith k n).running = false := rfl
@[simp] theorem haltWith_halt (s : State) (k : Cause) (n : Int) :
    (s.haltWith k n).halt = some { cause := k, pc := s.pc, ir := s.opcodeAtPc, info := n } := rfl
@[simp] theorem haltWith_out (s : State) (k : Cause) (n : Int) : (s.haltWith k n).out = s.out := rfl
@[simp] theorem haltWith_getReg (s : State) (k : Cause) (n : Int) (r : Reg) :
    (s.haltWith k n).getReg r = s.getReg r := rfl

/-- A raised condition is a halt with the condition's cause and value. -/
theorem raise_eq (s : State) (e : Condition) : s.raise e = s.haltWith e.cause e.info := rfl

@[simp] theorem raise_mem (s : State) (e : Condition) : (s.raise e).mem = s.mem := rfl
@[simp] theorem raise_regs (s : State) (e : Condition) : (s.raise e).regs = s.regs := rfl
@[simp] theorem raise_pc (s : State) (e : Condition) : (s.raise e).pc = s.pc := rfl
@[simp] theorem raise_fl (s : State) (e : Condition) : (s.raise e).fl = s.fl := rfl
@[simp] theorem raise_running (s : State) (e : Condition) : (s.raise e).running = false := rfl
@[simp] theorem raise_halt (s : State) (e : Condition) :
    (s.raise e).halt = some { cause := e.cause, pc := s.pc, ir := s.opcodeAtPc, info := e.info } := rfl
@[simp] theorem raise_out (s : State) (e : Condition) : (s.raise e).out = s.out := rfl
@[simp] theorem raise_getReg (s : State) (e : Condition) (r : Reg) : (s.raise e).getReg r = s.getReg r := rfl

/-! ### The Register File -/

@[simp] theorem regs_get_set_same (x : Regs) (r : Reg) (v : Byte) : (x.set r v).get r = v := by
  cases r <;> rfl

theorem regs_get_set_other (x : Regs) {r r' : Reg} (v : Byte) (h : r' ≠ r) : (x.set r v).get r' = x.get r' := by
  cases r <;> cases r' <;> first | rfl | exact absurd rfl h

/-- Two register files that answer every `get` alike are equal. -/
theorem regs_ext {x y : Regs} (h : ∀ r, x.get r = y.get r) : x = y := by
  obtain ⟨x0, x1, x2, x3, x4, x5, x6, x7⟩ := x
  obtain ⟨y0, y1, y2, y3, y4, y5, y6, y7⟩ := y
  have h0 := h .r0
  have h1 := h .r1
  have h2 := h .r2
  have h3 := h .r3
  have h4 := h .r4
  have h5 := h .r5
  have h6 := h .r6
  have h7 := h .r7
  simp_all [Regs.get]

@[simp] theorem getReg_setReg_same (s : State) (r : Reg) (v : Byte) : (s.setReg r v).getReg r = v :=
  regs_get_set_same s.regs r v

theorem getReg_setReg_other (s : State) {r r' : Reg} (v : Byte) (h : r' ≠ r) : (s.setReg r v).getReg r' = s.getReg r' :=
  regs_get_set_other s.regs v h

/-- Reading a register after a write, in one equation. -/
theorem getReg_setReg (s : State) (r r' : Reg) (v : Byte) :
    (s.setReg r v).getReg r' = if r' = r then v else s.getReg r' := by
  by_cases h : r' = r
  · subst h
    simp
  · simp [h, getReg_setReg_other s v h]

/-- `SP_INDEX` names R7 (rule R13): the laws speak of the stack pointer as `getReg .r7`. -/
@[simp] theorem reg_sp : Reg.sp = .r7 := rfl

@[simp] theorem sp_eq (s : State) : s.sp = s.getReg .r7 := rfl

/-! ### Flags -/

/-- The outcomes of a comparison as bytes (rule R103). -/
theorem compareFlags_eq (a b : Byte) :
    compareFlags a b = if a.toNat < b.toNat then 0x04 else if b.toNat < a.toNat then 0x02 else 0x01 := rfl

end Sys2Proof.Machine
end

