-- ==== Sys2Proof/Laws/Memory.lean ====
section
/-! SUPPORT. The laws of Memory: read after write, the canonical form kept by every operation, and that a canonical memory is
determined by what it reads. -/

namespace Sys2Proof.Machine

@[simp] theorem read_nil (a : Nat) : Memory.read [] a = 0 := rfl

theorem read_cons (b : Nat) (v : Byte) (m : Memory) (a : Nat) :
    Memory.read ((b, v) :: m) a = if a = b then v else Memory.read m a := rfl

/-- Below the first listed address every cell reads as an unlisted one. -/
theorem read_below {m : Memory} {a : Nat} (h : ∀ c ∈ m, a < c.1) : m.read a = 0 := by
  induction m with
  | nil => rfl
  | cons c m ih =>
    obtain ⟨b, v⟩ := c
    have hb : a < b := h (b, v) (by simp)
    rw [read_cons, if_neg (by omega)]
    exact ih fun c hc => h c (by simp [hc])

/-- A canonical memory's tail is canonical, and its head lies below the tail. -/
theorem wf_cons {b : Nat} {v : Byte} {m : Memory} :
    Memory.wf ((b, v) :: m) ↔ (∀ c ∈ m, b < c.1) ∧ b < 256 ∧ v ≠ 0 ∧ m.wf := by
  simp only [Memory.wf, List.pairwise_cons, List.mem_cons, forall_eq_or_imp, Config.core_memSize, Memory.unlisted]
  tauto

theorem wf_nil : Memory.wf [] := by simp [Memory.wf]

/-- Every address listed after a write is one listed before, or the address written. -/
theorem mem_write {m : Memory} {a : Nat} {v : Byte} {c : Host.Cell} (h : c ∈ m.write a v) : c ∈ m ∨ c = (a, v) := by
  induction m with
  | nil =>
    simp only [Memory.write] at h
    split at h <;> simp_all
  | cons d m ih =>
    obtain ⟨b, w⟩ := d
    simp only [Memory.write] at h
    split at h
    · split at h <;> simp_all
      tauto
    · split at h
      · split at h <;> simp_all
        tauto
      · rcases List.mem_cons.1 h with rfl | h
        · simp
        · rcases ih h with h | h <;> simp [h]

/-- A write to an address of Memory keeps the canonical form. -/
theorem wf_write {m : Memory} (hm : m.wf) {a : Nat} (ha : a < 256) (v : Byte) : (m.write a v).wf := by
  induction m with
  | nil =>
    simp only [Memory.write]
    split
    · exact wf_nil
    · exact wf_cons.2 ⟨by simp, ha, ‹_›, wf_nil⟩
  | cons c m ih =>
    obtain ⟨b, w⟩ := c
    obtain ⟨hbm, hb, hw, hm'⟩ := wf_cons.1 hm
    simp only [Memory.write]
    split
    · rename_i hab
      split
      · exact hm
      · refine wf_cons.2 ⟨?_, ha, ‹_›, hm⟩
        intro c hc
        rcases List.mem_cons.1 hc with rfl | hc
        · exact hab
        · exact hab.trans (hbm c hc)
    · split
      · rename_i hab
        subst hab
        split
        · exact hm'
        · exact wf_cons.2 ⟨hbm, ha, ‹_›, hm'⟩
      · refine wf_cons.2 ⟨?_, hb, hw, ih hm'⟩
        intro c hc
        rcases mem_write hc with hc | rfl
        · exact hbm c hc
        · show b < a
          omega

/-- Reading a cell after a write, in one equation. -/
theorem read_write {m : Memory} (hm : m.wf) (a a' : Nat) (v : Byte) :
    (m.write a v).read a' = if a' = a then v else m.read a' := by
  induction m with
  | nil =>
    simp only [Memory.write]
    split
    · rename_i hv
      subst hv
      simp [Memory.unlisted]
    · rfl
  | cons c m ih =>
    obtain ⟨b, w⟩ := c
    obtain ⟨hbm, hb, hw, hm'⟩ := wf_cons.1 hm
    simp only [Memory.write]
    split
    · rename_i hab
      split
      · rename_i hv
        subst hv
        by_cases h : a' = a
        · subst h
          rw [read_below (by
            intro c hc
            rcases List.mem_cons.1 hc with rfl | hc
            · exact hab
            · exact hab.trans (hbm c hc))]
          simp [Memory.unlisted]
        · simp [h]
      · exact read_cons a v _ a'
    · split
      · rename_i hab
        subst hab
        split
        · rename_i hv
          subst hv
          by_cases h : a' = a
          · subst h
            rw [read_below hbm]
            simp [Memory.unlisted]
          · simp [h, read_cons]
        · rw [read_cons, read_cons]
          split <;> simp_all
      · rw [read_cons, read_cons, ih hm']
        split
        · rw [if_neg (by omega)]
        · rfl

/-- Two canonical memories that read alike are the same list. -/
theorem wf_ext {m m' : Memory} (hm : m.wf) (hm' : m'.wf) (h : ∀ a, m.read a = m'.read a) : m = m' := by
  induction m generalizing m' with
  | nil =>
    cases m' with
    | nil => rfl
    | cons c m' =>
      obtain ⟨b, v⟩ := c
      obtain ⟨_, _, hv, _⟩ := wf_cons.1 hm'
      have := h b
      simp [read_cons] at this
      exact absurd this.symm hv
  | cons c m ih =>
    obtain ⟨b, v⟩ := c
    obtain ⟨hb, _, hv, hmt⟩ := wf_cons.1 hm
    cases m' with
    | nil =>
      have := h b
      simp [read_cons] at this
      exact absurd this hv
    | cons c' m' =>
      obtain ⟨b', v'⟩ := c'
      obtain ⟨hb', _, hv', hmt'⟩ := wf_cons.1 hm'
      have hbb : b = b' := by
        rcases Nat.lt_trichotomy b b' with hlt | heq | hgt
        · have := h b
          rw [read_cons, if_pos rfl, read_cons, if_neg (by omega), read_below fun c hc => hlt.trans (hb' c hc)] at this
          exact absurd this hv
        · exact heq
        · have := h b'
          rw [read_cons, if_neg (by omega), read_below fun c hc => hgt.trans (hb c hc), read_cons, if_pos rfl] at this
          exact absurd this.symm hv'
      subst hbb
      have hvv : v = v' := by simpa [read_cons] using h b
      subst hvv
      rw [ih hmt hmt' fun a => ?_]
      by_cases ha : a = b
      · subst ha
        rw [read_below hb, read_below hb']
      · simpa [read_cons, ha] using h a

/-- `MemRead` on a byte address never fails. -/
@[simp] theorem memRead_byte (s : State) (p : Byte) : s.memRead p.toNat = .ok (s.mem.read p.toNat) := by
  have := p.isLt
  rw [State.memRead, if_pos ⟨by omega, by simp only [Config.core_memSize]; omega⟩]
  simp

/-- `MemWrite` on a byte address never fails. -/
@[simp] theorem memWrite_byte (s : State) (p v : Byte) :
    s.memWrite p.toNat v = .ok { s with mem := s.mem.write p.toNat v } := by
  have := p.isLt
  rw [State.memWrite, if_pos ⟨by omega, by simp only [Config.core_memSize]; omega⟩]
  simp

/-- Every `MemRead` outside 0 to 255 is OutOfBounds with that address. -/
theorem memRead_out (s : State) {addr : Int} (h : ¬(0 ≤ addr ∧ addr < 256)) : s.memRead addr = .error (.outOfBounds addr) :=
  if_neg h

theorem memRead_in (s : State) {n : Nat} (h : n < 256) : s.memRead n = .ok (s.mem.read n) := by
  rw [State.memRead, if_pos ⟨by omega, by simp only [Config.core_memSize]; omega⟩]
  simp

/-- Three reads in a row are three `MemRead`s, the first that raises deciding (rule R72). -/
theorem memReads_three (s : State) (n : Nat) : s.memReads n 3 = (do
    let a ← s.memRead n
    let b ← s.memRead (n + 1)
    let c ← s.memRead (n + 2)
    .ok #v[a, b, c]) := by
  simp only [State.memReads, bind, Except.bind, Nat.cast_zero, Nat.cast_one, Nat.cast_ofNat, Int.add_zero,
    Nat.reduceAdd]
  cases s.memRead n with
  | error e => rfl
  | ok a =>
    cases s.memRead (n + 1) with
    | error e => rfl
    | ok b => cases s.memRead (n + 2) <;> rfl

/-- Every memory operation of the machine keeps the canonical form. -/
theorem memWrite_wf {s t : State} {addr : Int} {v : Byte} (hs : s.mem.wf) (h : s.memWrite addr v = .ok t) : t.mem.wf := by
  rw [State.memWrite] at h
  split at h
  · rename_i hr
    obtain rfl := by simpa using h
    exact wf_write hs (by have := hr.2; simp only [Config.core_memSize] at this; omega) v
  · cases h

end Sys2Proof.Machine
end

