-- ==== Sys2Proof/Laws/Launch.lean ====
section
/-! SUPPORT. The laws of the launch: what loading a byte sequence leaves in Memory. -/

namespace Sys2Proof.Machine

/-- Loading bytes within the 256 cells keeps the canonical form. -/
theorem load_wf (p : List Byte) : ∀ (m : Memory) (b : Nat), m.wf → b + p.length ≤ 256 → (m.load b p).wf := by
  induction p with
  | nil => exact fun m b h _ => h
  | cons v p ih =>
    intro m b h hl
    simp only [List.length_cons] at hl
    exact ih _ _ (wf_write h (by omega) v) (by omega)

/-- What a cell reads after a load at `b`: its byte of the sequence, or what it read before. -/
theorem load_read (p : List Byte) : ∀ (m : Memory) (b : Nat), m.wf → b + p.length ≤ 256 → ∀ a,
    (m.load b p).read a = if b ≤ a then (match p[a - b]? with | some v => v | none => m.read a) else m.read a := by
  induction p with
  | nil => intro m b h _ a; simp [Memory.load]
  | cons v p ih =>
    intro m b h hl a
    simp only [List.length_cons] at hl
    rw [Memory.load, ih _ _ (wf_write h (by omega) v) (by omega), read_write h]
    by_cases h1 : b + 1 ≤ a
    · obtain ⟨k, rfl⟩ : ∃ k, a = b + 1 + k := ⟨a - (b + 1), by omega⟩
      have e1 : b + 1 + k - b = k + 1 := by omega
      have e2 : b + 1 + k - (b + 1) = k := by omega
      have e3 : ¬(b + 1 + k = b) := by omega
      have e4 : b ≤ b + 1 + k := by omega
      simp only [h1, e1, e2, e3, e4, if_true, if_false, List.getElem?_cons_succ]
    · rw [if_neg h1]
      by_cases h2 : a = b
      · subst h2; simp
      · rw [if_neg h2, if_neg (by omega)]

/-- A program that fits has the launch state that rule R153 describes. -/
theorem launchIn_fits {c : Config} {p : List Byte} (h : c.loadBase + p.length ≤ c.memSize) :
    launchIn c p = some { State.resetIn c with mem := (State.resetIn c).mem.load c.loadBase p } := if_pos h

theorem launchIn_too_long {c : Config} {p : List Byte} (h : c.memSize < c.loadBase + p.length) : launchIn c p = none :=
  if_neg (by omega)

end Sys2Proof.Machine
end

