-- ==== Sys2Proof/Laws/Operands.lean ====
section
/-! SUPPORT. One lemma per shared operation: what `CheckReg`, the ALU, the stack primitives and `finish` can answer. -/

namespace Sys2Proof.Machine

/-! ### Register operands -/

/-- An operand byte names a register or is above 7. -/
theorem index_cases (a : Byte) : (∃ r, a = Reg.index r) ∨ 7 < a.toNat := by
  by_cases h : 7 < a.toNat
  · exact .inr h
  · left
    have hn : a.toNat = 0 ∨ a.toNat = 1 ∨ a.toNat = 2 ∨ a.toNat = 3 ∨ a.toNat = 4 ∨ a.toNat = 5 ∨ a.toNat = 6 ∨
        a.toNat = 7 := by omega
    rcases hn with h | h | h | h | h | h | h | h
    · exact ⟨.r0, BitVec.eq_of_toNat_eq h⟩
    · exact ⟨.r1, BitVec.eq_of_toNat_eq h⟩
    · exact ⟨.r2, BitVec.eq_of_toNat_eq h⟩
    · exact ⟨.r3, BitVec.eq_of_toNat_eq h⟩
    · exact ⟨.r4, BitVec.eq_of_toNat_eq h⟩
    · exact ⟨.r5, BitVec.eq_of_toNat_eq h⟩
    · exact ⟨.r6, BitVec.eq_of_toNat_eq h⟩
    · exact ⟨.r7, BitVec.eq_of_toNat_eq h⟩

theorem index_le (r : Reg) : (Reg.index r).toNat ≤ 7 := by cases r <;> decide

theorem index_injective {r r' : Reg} (h : Reg.index r = Reg.index r') : r = r' := by
  revert h
  cases r <;> cases r' <;> decide

@[simp] theorem checkReg_index (r : Reg) : checkReg (Reg.index r) = .ok r := by cases r <;> rfl

theorem checkReg_above {a : Byte} (h : 7 < a.toNat) : checkReg a = .error (.invalidRegister a) := by
  obtain ⟨k, hk⟩ : ∃ k, a.toNat = k + 8 := ⟨a.toNat - 8, by omega⟩
  simp [checkReg, Reg.ofIndex, Reg.all, hk]

/-- What `CheckReg` accepts. -/
theorem checkReg_eq_ok {a : Byte} {r : Reg} : checkReg a = .ok r ↔ a = Reg.index r := by
  constructor
  · intro h
    rcases index_cases a with ⟨r', rfl⟩ | ha
    · rw [checkReg_index] at h
      injection h with h
      rw [h]
    · rw [checkReg_above ha] at h
      cases h
  · rintro rfl
    exact checkReg_index r

/-! ### The ALU (rules R101 to R104) -/

@[simp] theorem alu_add (a b : Byte) : alu .add a b = .ok (a + b) := by
  simp only [alu, Except.ok.injEq]
  apply BitVec.eq_of_toNat_eq
  simp [BitVec.toNat_add]

@[simp] theorem alu_mul (a b : Byte) : alu .mul a b = .ok (a * b) := by
  simp only [alu, Except.ok.injEq]
  apply BitVec.eq_of_toNat_eq
  simp [BitVec.toNat_mul]

@[simp] theorem alu_cmp (a b : Byte) : alu .cmp a b = .ok (compareFlags a b) := rfl

/-! ### The stack primitives (rules R111, R112) -/

theorem pushAddress_zero {s : State} (h : s.getReg .r7 = 0) : pushAddress s = .error (.outOfBounds (-1)) :=
  if_pos h

theorem pushAddress_pos {s : State} (h : s.getReg .r7 ≠ 0) : pushAddress s = .ok (s.getReg .r7 - 1) :=
  if_neg h

theorem stackReserve_zero {s : State} (h : s.getReg .r7 = 0) : stackReserve s = .error (.outOfBounds (-1)) := by
  simp [stackReserve, pushAddress_zero h, bind, Except.bind]

theorem stackReserve_pos {s : State} (h : s.getReg .r7 ≠ 0) : stackReserve s = .ok (s.setReg .r7 (s.getReg .r7 - 1)) := by
  simp [stackReserve, pushAddress_pos h, bind, Except.bind]

@[simp] theorem stackStore_eq (v : Byte) (s : State) :
    stackStore v s = .ok { s with mem := s.mem.write (s.getReg .r7).toNat v } := memWrite_byte s (s.getReg .r7) v

theorem stackPush_zero {s : State} (v : Byte) (h : s.getReg .r7 = 0) : stackPush v s = .error (.outOfBounds (-1)) := by
  simp [stackPush, stackReserve_zero h, bind, Except.bind]

/-- A push that has room: the pointer one lower, the byte stored there. -/
theorem stackPush_pos {s : State} (v : Byte) (h : s.getReg .r7 ≠ 0) :
    stackPush v s = .ok { s.setReg .r7 (s.getReg .r7 - 1) with mem := s.mem.write (s.getReg .r7 - 1).toNat v } := by
  simp [stackPush, stackReserve_pos h, bind, Except.bind]

@[simp] theorem stackLoad_eq (s : State) : stackLoad s = .ok (s.mem.read (s.getReg .r7).toNat) :=
  memRead_byte s (s.getReg .r7)

theorem stackRelease_top {s : State} (h : s.getReg .r7 = 0xFF) : stackRelease s = .error (.outOfBounds 256) :=
  if_pos h

theorem stackRelease_below {s : State} (h : s.getReg .r7 ≠ 0xFF) : stackRelease s = .ok (s.setReg .r7 (s.getReg .r7 + 1)) :=
  if_neg h

/-! ### The end of a handler -/

@[simp] theorem finish_ok (s t : State) : finish s (.ok t) = .next t := rfl

@[simp] theorem finish_error (s : State) (e : Condition) : finish s (.error e) = .next (s.raise e) := rfl

/-- Everything `finish` can answer: the handler's state, or its condition taken in the state it started from. -/
theorem finish_cases {s t : State} {r : Except Condition State} (h : finish s r = .next t) :
    r = .ok t ∨ ∃ e, r = .error e ∧ t = s.raise e := by
  cases r with
  | ok u => exact .inl (by simpa using h)
  | error e => exact .inr ⟨e, rfl, by simpa using h.symm⟩

/-- A handler never ends in a fault or a refusal. -/
theorem finish_total (s : State) (r : Except Condition State) : ∃ t, finish s r = .next t := by
  cases r <;> exact ⟨_, rfl⟩

end Sys2Proof.Machine
end

