-- ==== Sys2Proof/Laws/Exec.lean ====
section
/-! SUPPORT. One lemma per case of each instruction: the state it gives on registers that exist, and the condition it raises
otherwise. Later proofs cite these and do not unfold a meaning. -/

namespace Sys2Proof.Machine

/-! ### LDI, PRN -/

theorem execLdi_index (r : Reg) (imm : Byte) (s : State) :
    execLdi (Reg.index r) imm s = .next ((s.setReg r imm).advance 3) := by
  simp [execLdi, bind, Except.bind]

theorem execLdi_above {a : Byte} (h : 7 < a.toNat) (imm : Byte) (s : State) :
    execLdi a imm s = .next (s.raise (.invalidRegister a)) := by
  simp [execLdi, checkReg_above h, bind, Except.bind]

theorem execPrn_index (r : Reg) (s : State) :
    execPrn (Reg.index r) s = .next ((s.emit (s.getReg r)).advance 2) := by
  simp [execPrn, bind, Except.bind]

theorem execPrn_above {a : Byte} (h : 7 < a.toNat) (s : State) : execPrn a s = .next (s.raise (.invalidRegister a)) := by
  simp [execPrn, checkReg_above h, bind, Except.bind]

/-! ### ADD, MUL, CMP -/

theorem aluOperands_index (op : AluOp) (r r' : Reg) (s : State) :
    aluOperands op (Reg.index r) (Reg.index r') s = (alu op (s.getReg r) (s.getReg r')).map (fun v => (r, v)) := by
  simp only [aluOperands, checkReg_index, bind, Except.bind]
  cases alu op (s.getReg r) (s.getReg r') <;> rfl

theorem aluOperands_above_a (op : AluOp) {a : Byte} (h : 7 < a.toNat) (b : Byte) (s : State) :
    aluOperands op a b s = .error (.invalidRegister a) := by
  simp [aluOperands, checkReg_above h, bind, Except.bind]

theorem aluOperands_above_b (op : AluOp) (r : Reg) {b : Byte} (h : 7 < b.toNat) (s : State) :
    aluOperands op (Reg.index r) b s = .error (.invalidRegister b) := by
  simp [aluOperands, checkReg_above h, bind, Except.bind]

theorem execAdd_index (r r' : Reg) (s : State) :
    execAdd (Reg.index r) (Reg.index r') s = .next ((s.setReg r (s.getReg r + s.getReg r')).advance 3) := by
  simp [execAdd, aluOperands_index, Except.map, bind, Except.bind]

theorem execAdd_above_a {a : Byte} (h : 7 < a.toNat) (b : Byte) (s : State) :
    execAdd a b s = .next (s.raise (.invalidRegister a)) := by
  simp [execAdd, aluOperands_above_a _ h, bind, Except.bind]

theorem execAdd_above_b (r : Reg) {b : Byte} (h : 7 < b.toNat) (s : State) :
    execAdd (Reg.index r) b s = .next (s.raise (.invalidRegister b)) := by
  simp [execAdd, aluOperands_above_b _ r h, bind, Except.bind]

theorem execMul_index (r r' : Reg) (s : State) :
    execMul (Reg.index r) (Reg.index r') s = .next ((s.setReg r (s.getReg r * s.getReg r')).advance 3) := by
  simp [execMul, aluOperands_index, Except.map, bind, Except.bind]

theorem execMul_above_a {a : Byte} (h : 7 < a.toNat) (b : Byte) (s : State) :
    execMul a b s = .next (s.raise (.invalidRegister a)) := by
  simp [execMul, aluOperands_above_a _ h, bind, Except.bind]

theorem execMul_above_b (r : Reg) {b : Byte} (h : 7 < b.toNat) (s : State) :
    execMul (Reg.index r) b s = .next (s.raise (.invalidRegister b)) := by
  simp [execMul, aluOperands_above_b _ r h, bind, Except.bind]

theorem execCmp_index (r r' : Reg) (s : State) :
    execCmp (Reg.index r) (Reg.index r') s = .next ((s.setFl (compareFlags (s.getReg r) (s.getReg r'))).advance 3) := by
  simp [execCmp, aluOperands_index, Except.map, bind, Except.bind]

theorem execCmp_above_a {a : Byte} (h : 7 < a.toNat) (b : Byte) (s : State) :
    execCmp a b s = .next (s.raise (.invalidRegister a)) := by
  simp [execCmp, aluOperands_above_a _ h, bind, Except.bind]

theorem execCmp_above_b (r : Reg) {b : Byte} (h : 7 < b.toNat) (s : State) :
    execCmp (Reg.index r) b s = .next (s.raise (.invalidRegister b)) := by
  simp [execCmp, aluOperands_above_b _ r h, bind, Except.bind]

/-! ### PUSH, POP -/

/-- The state a push of `v` leaves, before `pc` moves. -/
def pushed (s : State) (v : Byte) : State :=
  { s.setReg .r7 (s.getReg .r7 - 1) with mem := s.mem.write (s.getReg .r7 - 1).toNat v }

@[simp] theorem pushed_mem (s : State) (v : Byte) : (pushed s v).mem = s.mem.write (s.getReg .r7 - 1).toNat v := rfl
@[simp] theorem pushed_pc (s : State) (v : Byte) : (pushed s v).pc = s.pc := rfl
@[simp] theorem pushed_fl (s : State) (v : Byte) : (pushed s v).fl = s.fl := rfl
@[simp] theorem pushed_running (s : State) (v : Byte) : (pushed s v).running = s.running := rfl
@[simp] theorem pushed_halt (s : State) (v : Byte) : (pushed s v).halt = s.halt := rfl
@[simp] theorem pushed_out (s : State) (v : Byte) : (pushed s v).out = s.out := rfl
@[simp] theorem pushed_getReg (s : State) (v : Byte) (r : Reg) :
    (pushed s v).getReg r = (s.setReg .r7 (s.getReg .r7 - 1)).getReg r := rfl

theorem execPush_index (r : Reg) {s : State} (h : s.getReg .r7 ≠ 0) :
    execPush (Reg.index r) s = .next ((pushed s ((s.setReg .r7 (s.getReg .r7 - 1)).getReg r)).advance 2) := by
  simp [execPush, stackReserve_pos h, bind, Except.bind, pushed]

theorem execPush_zero (r : Reg) {s : State} (h : s.getReg .r7 = 0) :
    execPush (Reg.index r) s = .next (s.raise (.outOfBounds (-1))) := by
  simp [execPush, stackReserve_zero h, bind, Except.bind]

theorem execPush_above {a : Byte} (h : 7 < a.toNat) (s : State) : execPush a s = .next (s.raise (.invalidRegister a)) := by
  simp [execPush, checkReg_above h, bind, Except.bind]

/-- The pointer a POP into `r` checks and increments: the loaded byte when `r` is R7 (rule R114). -/
def popPointer (r : Reg) (s : State) : Byte := (s.setReg r (s.mem.read (s.getReg .r7).toNat)).getReg .r7

theorem execPop_index (r : Reg) {s : State} (h : popPointer r s ≠ 0xFF) :
    execPop (Reg.index r) s =
      .next (((s.setReg r (s.mem.read (s.getReg .r7).toNat)).setReg .r7 (popPointer r s + 1)).advance 2) := by
  have := stackRelease_below h
  simp only [execPop, checkReg_index, stackLoad_eq, bind, Except.bind, this]
  rfl

theorem execPop_top (r : Reg) {s : State} (h : popPointer r s = 0xFF) :
    execPop (Reg.index r) s = .next (s.raise (.outOfBounds 256)) := by
  have := stackRelease_top h
  simp only [execPop, checkReg_index, stackLoad_eq, bind, Except.bind, this]
  rfl

theorem execPop_above {a : Byte} (h : 7 < a.toNat) (s : State) : execPop a s = .next (s.raise (.invalidRegister a)) := by
  simp [execPop, checkReg_above h, bind, Except.bind]

/-! ### CALL, RET, JMP, JEQ, JNE, HLT -/

theorem execCall_index (r : Reg) {s : State} (h : s.getReg .r7 ≠ 0) :
    execCall (Reg.index r) s =
      .next ((pushed s (returnAddress s)).redirect ((s.setReg .r7 (s.getReg .r7 - 1)).getReg r)) := by
  simp only [execCall, checkReg_index, stackPush_pos _ h, bind, Except.bind]
  rfl

theorem execCall_zero (r : Reg) {s : State} (h : s.getReg .r7 = 0) :
    execCall (Reg.index r) s = .next (s.raise (.outOfBounds (-1))) := by
  simp [execCall, stackPush_zero _ h, bind, Except.bind]

theorem execCall_above {a : Byte} (h : 7 < a.toNat) (s : State) : execCall a s = .next (s.raise (.invalidRegister a)) := by
  simp [execCall, checkReg_above h, bind, Except.bind]

theorem execRet_below {s : State} (h : s.getReg .r7 ≠ 0xFF) :
    execRet s = .next ((s.setReg .r7 (s.getReg .r7 + 1)).redirect (s.mem.read (s.getReg .r7).toNat)) := by
  simp [execRet, stackRelease_below h, bind, Except.bind]

theorem execRet_top {s : State} (h : s.getReg .r7 = 0xFF) : execRet s = .next (s.raise (.outOfBounds 256)) := by
  simp [execRet, stackRelease_top h, bind, Except.bind]

theorem jumpIf_index (taken : Bool) (r : Reg) (s : State) :
    jumpIf taken (Reg.index r) s = .ok (if taken then s.redirect (s.getReg r) else s.advance 2) := by
  simp [jumpIf, bind, Except.bind]

theorem jumpIf_above (taken : Bool) {a : Byte} (h : 7 < a.toNat) (s : State) :
    jumpIf taken a s = .error (.invalidRegister a) := by
  simp [jumpIf, checkReg_above h, bind, Except.bind]

theorem execHlt_eq (s : State) : execHlt s = .next (s.haltWith .hlt 0) := rfl

/-! ### Every instruction -/

/-- No instruction ends in a fault or a refusal: its outcome is always a next state. -/
theorem exec_total (i : Instr) (s : State) : ∃ t, exec i s = .next t := by
  cases i <;> simp only [exec, execHlt, execRet, execPush, execPop, execPrn, execCall, execJmp, execJeq, execJne, execLdi,
    execAdd, execMul, execCmp]
  case hlt => exact ⟨_, rfl⟩
  all_goals exact finish_total s _

end Sys2Proof.Machine
end

