-- ==== Sys2Proof/Laws/Step.lean ====
section
/-! SUPPORT. What a cycle can do: the fetch's two outcomes, and the inversion of `cycle`. -/

namespace Sys2Proof.Machine

/-- The fetch as its three reads (rule R72). -/
theorem fetch_eq (s : State) : fetch s = (do
    let ir ← s.memRead s.pc.toNat
    let a ← s.memRead (s.pc.toNat + 1)
    let b ← s.memRead (s.pc.toNat + 2)
    .ok ⟨ir, a, b⟩) := by
  have h := memReads_three s s.pc.toNat
  simp only [fetch]
  show (s.memReads s.pc.toNat 3).bind _ = _
  rw [h]
  simp only [bind, Except.bind]
  cases s.memRead s.pc.toNat with
  | error e => rfl
  | ok ir =>
    cases s.memRead (s.pc.toNat + 1) with
    | error e => rfl
    | ok a => cases s.memRead (s.pc.toNat + 2) <;> rfl

/-- A fetch at `pc0 <= 253` succeeds with the three bytes there (rule R72). -/
theorem fetch_ok {s : State} (h : s.pc.toNat ≤ 253) :
    fetch s = .ok ⟨s.mem.read s.pc.toNat, s.mem.read (s.pc.toNat + 1), s.mem.read (s.pc.toNat + 2)⟩ := by
  have h0 := memRead_in s (n := s.pc.toNat) (by omega)
  have h1 := memRead_in s (n := s.pc.toNat + 1) (by omega)
  have h2 := memRead_in s (n := s.pc.toNat + 2) (by omega)
  push_cast at h1 h2
  simp only [fetch_eq, h0, h1, h2, bind, Except.bind]

/-- A fetch at 254, 255 or 256 reports address 256 (rule R72). -/
theorem fetch_end {s : State} (h : 254 ≤ s.pc.toNat) (h' : s.pc.toNat ≤ 256) : fetch s = .error (.outOfBounds 256) := by
  have hc : (s.pc.toNat : Int) = 254 ∨ (s.pc.toNat : Int) = 255 ∨ (s.pc.toNat : Int) = 256 := by omega
  have m254 : s.memRead 254 = .ok (s.mem.read 254) := memRead_in (n := 254) s (by decide)
  have m255 : s.memRead 255 = .ok (s.mem.read 255) := memRead_in (n := 255) s (by decide)
  have m256 : s.memRead 256 = .error (.outOfBounds 256) := memRead_out s (by decide)
  have e1 : (254 : Int) + 1 = 255 := by decide
  have e2 : (254 : Int) + 2 = 256 := by decide
  have e3 : (255 : Int) + 1 = 256 := by decide
  rcases hc with hc | hc | hc <;> simp only [fetch_eq, hc, e1, e2, e3, m254, m255, m256, bind, Except.bind]

/-- A fetch beyond 256 (no run reaches one) reports the counter itself. -/
theorem fetch_beyond {s : State} (h : 256 ≤ s.pc.toNat) : fetch s = .error (.outOfBounds s.pc.toNat) := by
  have h0 := memRead_out s (addr := s.pc.toNat) (by omega)
  simp [fetch_eq, bind, Except.bind, h0]

theorem cycle_halted (c : Config) {s : State} (h : s.running = false) : cycle c s = .fault .halted := by
  simp [cycle, h]

theorem cycle_fetch_error (c : Config) {s : State} {e : Condition} (h : s.running = true) (hf : fetch s = .error e) :
    cycle c s = .next (s.raise e) := by
  simp [cycle, h, hf]

theorem cycle_reject {c : Config} {s : State} {f : Fetched} (h : s.running = true) (hf : fetch s = .ok f)
    (hd : dispatch c f.ir = none) : cycle c s = .next (s.raise (.unknownOpcode f.ir)) := by
  simp [cycle, h, hf, decode, hd, rejectCondition]

theorem cycle_exec {c : Config} {s : State} {f : Fetched} {i : Instr} (h : s.running = true) (hf : fetch s = .ok f)
    (hd : decode c f.ir f.a f.b = .ok i) : cycle c s = exec i s := by
  simp [cycle, h, hf, hd]

/-- Everything a cycle that answers a next state can have done. -/
theorem cycle_cases {c : Config} {s t : State} (h : cycle c s = .next t) :
    s.running = true ∧
      ((254 ≤ s.pc.toNat ∧ ∃ e, fetch s = .error e ∧ t = s.raise e) ∨
       (s.pc.toNat ≤ 253 ∧ dispatch c (s.mem.read s.pc.toNat) = none ∧
          t = s.raise (.unknownOpcode (s.mem.read s.pc.toNat))) ∨
       (s.pc.toNat ≤ 253 ∧ ∃ i,
          decode c (s.mem.read s.pc.toNat) (s.mem.read (s.pc.toNat + 1)) (s.mem.read (s.pc.toNat + 2)) = .ok i ∧
          exec i s = .next t)) := by
  cases hr : s.running with
  | false => rw [cycle_halted c hr] at h; cases h
  | true =>
    refine ⟨rfl, ?_⟩
    by_cases hp : s.pc.toNat ≤ 253
    · have hf := fetch_ok hp
      cases hd : dispatch c (s.mem.read s.pc.toNat) with
      | none =>
        rw [cycle_reject hr hf hd] at h
        exact .inr (.inl ⟨hp, rfl, by simpa using h.symm⟩)
      | some m =>
        have hdec : decode c (s.mem.read s.pc.toNat) (s.mem.read (s.pc.toNat + 1)) (s.mem.read (s.pc.toNat + 2)) =
            .ok (m.withOperands (s.mem.read (s.pc.toNat + 1)) (s.mem.read (s.pc.toNat + 2))) := by
          simp [decode, hd]
        rw [cycle_exec hr hf hdec] at h
        exact .inr (.inr ⟨hp, _, hdec, h⟩)
    · have hf : ∃ e, fetch s = .error e := by
        by_cases hp' : s.pc.toNat ≤ 256
        · exact ⟨_, fetch_end (by omega) hp'⟩
        · exact ⟨_, fetch_beyond (by omega)⟩
      obtain ⟨e, hf⟩ := hf
      rw [cycle_fetch_error c hr hf] at h
      exact .inl ⟨by omega, e, hf, by simpa using h.symm⟩

/-- A Running state always has a next state: a cycle never faults and never refuses (rule R71, "total on Running states"). -/
theorem cycle_running (c : Config) {s : State} (h : s.running = true) : ∃ t, cycle c s = .next t := by
  simp only [cycle, h, if_true]
  split
  · exact ⟨_, rfl⟩
  · split
    · exact ⟨_, rfl⟩
    · exact exec_total _ _

end Sys2Proof.Machine
end

