-- ==== Sys2Proof/Laws/Numbers.lean ====
section
/-! SUPPORT. The words of the machine as numbers: the moves of `pc` and of the stack pointer do not wrap where the machine makes
them (rules R14, R23, R111, R112), and the halt record's `ir`. -/

namespace Sys2Proof.Machine

/-- An advance after a fetch that passed does not wrap (rule R14). -/
theorem advance_toNat (s : State) {n : Nat} (h : s.pc.toNat ≤ 253) (hn : n ≤ 3) :
    (s.advance n).pc.toNat = s.pc.toNat + n := by
  rw [advance_pc, BitVec.toNat_add, BitVec.toNat_ofNat]
  omega

/-- A redirect zero-extends its byte (rule R125). -/
theorem redirect_toNat (s : State) (v : Byte) : (s.redirect v).pc.toNat = v.toNat := by
  have := v.isLt
  rw [redirect_pc, BitVec.toNat_setWidth]
  omega

/-- The return address is exact after a fetch that passed (rule R23). -/
theorem returnAddress_toNat {s : State} (h : s.pc.toNat ≤ 253) : (returnAddress s).toNat = s.pc.toNat + 2 := by
  have h2 : (s.pc + 2).toNat = s.pc.toNat + 2 := advance_toNat s (n := 2) h (by omega)
  rw [returnAddress, BitVec.toNat_setWidth, h2]
  omega

theorem sub_one_toNat {b : Byte} (h : b ≠ 0) : (b - 1).toNat + 1 = b.toNat := by
  have h0 : b.toNat ≠ 0 := fun h' => h (BitVec.eq_of_toNat_eq h')
  have := b.isLt
  rw [BitVec.toNat_sub]
  simp
  omega

theorem add_one_toNat {b : Byte} (h : b ≠ 0xFF) : (b + 1).toNat = b.toNat + 1 := by
  have h0 : b.toNat ≠ 255 := fun h' => h (BitVec.eq_of_toNat_eq h')
  have := b.isLt
  rw [BitVec.toNat_add]
  simp
  omega

end Sys2Proof.Machine
end

