-- ==== Sys2Proof/Laws/Cases.lean ====
section
/-! SUPPORT. Everything an instruction can do, said once: the inversion of `exec`. An invariant is proved by `cases` on it. -/

namespace Sys2Proof.Machine

/-- The opcode byte a halt records is the one of the state it stopped. -/
theorem opcodeAtPc_eq (s : State) : s.opcodeAtPc = fetchedOpcode s := by
  simp only [State.opcodeAtPc, fetchedOpcode, Config.core_memSize]
  congr 1
  simp only [eq_iff_iff]
  omega

/-- A raised condition stops the machine as rule R135 says. -/
theorem raise_stopped (s : State) (e : Condition) : StoppedAs s (s.raise e) e.cause e.info :=
  ⟨rfl, rfl, rfl, rfl, rfl, rfl, by rw [raise_halt, opcodeAtPc_eq]⟩

/-- HLT stops the machine in the same way (rule R76). -/
theorem haltWith_stopped (s : State) (k : Cause) (n : Int) : StoppedAs s (s.haltWith k n) k n :=
  ⟨rfl, rfl, rfl, rfl, rfl, rfl, by rw [haltWith_halt, opcodeAtPc_eq]⟩

/-- A write to one register keeps the others. -/
theorem setReg_kept (s : State) (r : Reg) (v : Byte) : RegsKept [r] s (s.setReg r v) := fun _ h =>
  getReg_setReg_other s v (by simpa using h)

theorem Runs.cycle_eq {c : Config} {s : State} {i : Instr} (h : Runs c s i) : cycle c s = exec i s :=
  cycle_exec h.1 (fetch_ok h.2.1) h.2.2

/-- The outcomes of each instruction, as its rule gives them. -/
inductive Effect (s : State) : Instr → State → Prop where
  | badIndex (i : Instr) (a : Byte) :
      (registerOperands i).find? (fun x => 7 < x.toNat) = some a → Effect s i (s.raise (.invalidRegister a))
  | ldi (r : Reg) (imm : Byte) : Effect s (.ldi r.index imm) ((s.setReg r imm).advance 3)
  | prn (r : Reg) : Effect s (.prn r.index) ((s.emit (s.getReg r)).advance 2)
  | add (ra rb : Reg) :
      Effect s (.add ra.index rb.index) ((s.setReg ra (s.getReg ra + s.getReg rb)).advance 3)
  | mul (ra rb : Reg) :
      Effect s (.mul ra.index rb.index) ((s.setReg ra (s.getReg ra * s.getReg rb)).advance 3)
  | cmp (ra rb : Reg) :
      Effect s (.cmp ra.index rb.index) ((s.setFl (compareFlags (s.getReg ra) (s.getReg rb))).advance 3)
  | push (r : Reg) : s.getReg .r7 ≠ 0 →
      Effect s (.push r.index) ((pushed s ((s.setReg .r7 (s.getReg .r7 - 1)).getReg r)).advance 2)
  | pushLimit (r : Reg) : s.getReg .r7 = 0 → Effect s (.push r.index) (s.raise (.outOfBounds (-1)))
  | pop (r : Reg) : popPointer r s ≠ 0xFF →
      Effect s (.pop r.index)
        (((s.setReg r (s.mem.read (s.getReg .r7).toNat)).setReg .r7 (popPointer r s + 1)).advance 2)
  | popLimit (r : Reg) : popPointer r s = 0xFF → Effect s (.pop r.index) (s.raise (.outOfBounds 256))
  | call (r : Reg) : s.getReg .r7 ≠ 0 →
      Effect s (.call r.index) ((pushed s (returnAddress s)).redirect ((s.setReg .r7 (s.getReg .r7 - 1)).getReg r))
  | callLimit (r : Reg) : s.getReg .r7 = 0 → Effect s (.call r.index) (s.raise (.outOfBounds (-1)))
  | ret : s.getReg .r7 ≠ 0xFF →
      Effect s .ret ((s.setReg .r7 (s.getReg .r7 + 1)).redirect (s.mem.read (s.getReg .r7).toNat))
  | retLimit : s.getReg .r7 = 0xFF → Effect s .ret (s.raise (.outOfBounds 256))
  | jmp (r : Reg) : Effect s (.jmp r.index) (s.redirect (s.getReg r))
  | jeq (r : Reg) : Effect s (.jeq r.index) (if s.flE then s.redirect (s.getReg r) else s.advance 2)
  | jne (r : Reg) : Effect s (.jne r.index) (if s.flE then s.advance 2 else s.redirect (s.getReg r))
  | hlt : Effect s .hlt (s.haltWith .hlt 0)

theorem badIndex_one {i : Instr} {a : Byte} {rest : List Byte} (h : registerOperands i = a :: rest) (ha : 7 < a.toNat) :
    (registerOperands i).find? (fun x => 7 < x.toNat) = some a := by
  rw [h, List.find?_cons_of_pos (by simpa using ha)]

theorem badIndex_two {i : Instr} {r : Reg} {b : Byte} (h : registerOperands i = [r.index, b]) (hb : 7 < b.toNat) :
    (registerOperands i).find? (fun x => 7 < x.toNat) = some b := by
  have := index_le r
  rw [h, List.find?_cons_of_neg (by simpa using this), List.find?_cons_of_pos (by simpa using hb)]

/-- The popped pointer, named as the two cases of rule R114. -/
theorem popPointer_eq (r : Reg) (s : State) :
    popPointer r s = if r = .r7 then s.mem.read (s.getReg .r7).toNat else s.getReg .r7 := by
  cases r <;> rfl

/-- Every instruction's next state is one of its outcomes. -/
theorem exec_effect (i : Instr) (s : State) : ∃ t, exec i s = .next t ∧ Effect s i t := by
  cases i with
  | hlt => exact ⟨_, rfl, .hlt⟩
  | ret =>
    by_cases h : s.getReg .r7 = 0xFF
    · exact ⟨_, execRet_top h, .retLimit h⟩
    · exact ⟨_, execRet_below h, .ret h⟩
  | push a =>
    rcases index_cases a with ⟨r, rfl⟩ | ha
    · by_cases h : s.getReg .r7 = 0
      · exact ⟨_, execPush_zero r h, .pushLimit r h⟩
      · exact ⟨_, execPush_index r h, .push r h⟩
    · exact ⟨_, execPush_above ha s, .badIndex _ _ (badIndex_one rfl ha)⟩
  | pop a =>
    rcases index_cases a with ⟨r, rfl⟩ | ha
    · by_cases h : popPointer r s = 0xFF
      · exact ⟨_, execPop_top r h, .popLimit r h⟩
      · exact ⟨_, execPop_index r h, .pop r h⟩
    · exact ⟨_, execPop_above ha s, .badIndex _ _ (badIndex_one rfl ha)⟩
  | prn a =>
    rcases index_cases a with ⟨r, rfl⟩ | ha
    · exact ⟨_, execPrn_index r s, .prn r⟩
    · exact ⟨_, execPrn_above ha s, .badIndex _ _ (badIndex_one rfl ha)⟩
  | call a =>
    rcases index_cases a with ⟨r, rfl⟩ | ha
    · by_cases h : s.getReg .r7 = 0
      · exact ⟨_, execCall_zero r h, .callLimit r h⟩
      · exact ⟨_, execCall_index r h, .call r h⟩
    · exact ⟨_, execCall_above ha s, .badIndex _ _ (badIndex_one rfl ha)⟩
  | jmp a =>
    rcases index_cases a with ⟨r, rfl⟩ | ha
    · exact ⟨_, by rw [exec, execJmp, jumpIf_index]; rfl, .jmp r⟩
    · exact ⟨_, by rw [exec, execJmp, jumpIf_above _ ha]; rfl, .badIndex _ _ (badIndex_one rfl ha)⟩
  | jeq a =>
    rcases index_cases a with ⟨r, rfl⟩ | ha
    · exact ⟨_, by rw [exec, execJeq, jumpIf_index]; rfl, .jeq r⟩
    · exact ⟨_, by rw [exec, execJeq, jumpIf_above _ ha]; rfl, .badIndex _ _ (badIndex_one rfl ha)⟩
  | jne a =>
    rcases index_cases a with ⟨r, rfl⟩ | ha
    · refine ⟨_, ?_, .jne r⟩
      rw [exec, execJne, jumpIf_index]
      cases s.flE <;> rfl
    · exact ⟨_, by rw [exec, execJne, jumpIf_above _ ha]; rfl, .badIndex _ _ (badIndex_one rfl ha)⟩
  | ldi a imm =>
    rcases index_cases a with ⟨r, rfl⟩ | ha
    · exact ⟨_, execLdi_index r imm s, .ldi r imm⟩
    · exact ⟨_, execLdi_above ha imm s, .badIndex _ _ (badIndex_one rfl ha)⟩
  | add a b =>
    rcases index_cases a with ⟨ra, rfl⟩ | ha
    · rcases index_cases b with ⟨rb, rfl⟩ | hb
      · exact ⟨_, execAdd_index ra rb s, .add ra rb⟩
      · exact ⟨_, execAdd_above_b ra hb s, .badIndex _ _ (badIndex_two rfl hb)⟩
    · exact ⟨_, execAdd_above_a ha b s, .badIndex _ _ (badIndex_one rfl ha)⟩
  | mul a b =>
    rcases index_cases a with ⟨ra, rfl⟩ | ha
    · rcases index_cases b with ⟨rb, rfl⟩ | hb
      · exact ⟨_, execMul_index ra rb s, .mul ra rb⟩
      · exact ⟨_, execMul_above_b ra hb s, .badIndex _ _ (badIndex_two rfl hb)⟩
    · exact ⟨_, execMul_above_a ha b s, .badIndex _ _ (badIndex_one rfl ha)⟩
  | cmp a b =>
    rcases index_cases a with ⟨ra, rfl⟩ | ha
    · rcases index_cases b with ⟨rb, rfl⟩ | hb
      · exact ⟨_, execCmp_index ra rb s, .cmp ra rb⟩
      · exact ⟨_, execCmp_above_b ra hb s, .badIndex _ _ (badIndex_two rfl hb)⟩
    · exact ⟨_, execCmp_above_a ha b s, .badIndex _ _ (badIndex_one rfl ha)⟩

/-- A bad index decides the outcome: InvalidRegister with the first bad operand byte (rule R133). -/
theorem Effect.of_badIndex {s t : State} {i : Instr} {a : Byte} (h : Effect s i t)
    (ha : (registerOperands i).find? (fun x => 7 < x.toNat) = some a) : t = s.raise (.invalidRegister a) := by
  have hno : ∀ r : Reg, ¬7 < r.index.toNat := fun r => by have := index_le r; omega
  cases h with
  | badIndex i b hb =>
    rw [hb] at ha
    injection ha with ha
    rw [ha]
  | _ => simp [registerOperands, hno] at ha

/-- On registers that exist there is no bad index. -/
theorem index_not_bad (r : Reg) : ¬7 < r.index.toNat := by
  have := index_le r
  omega

/-- A raised condition is recorded with its own cause, and no other. -/
theorem raise_haltedBy (s : State) (e : Condition) (k : Cause) : HaltedBy (s.raise e) k ↔ e.cause = k := by
  constructor
  · rintro ⟨h, hh, hk⟩
    rw [raise_halt] at hh
    injection hh with hh
    rw [← hk, ← hh]
  · exact fun h => ⟨_, rfl, h⟩

/-- The inversion of `exec`: if it answers `next t`, then `t` is one of the instruction's outcomes. -/
theorem exec_cases {i : Instr} {s t : State} (h : exec i s = .next t) : Effect s i t := by
  obtain ⟨u, hu, he⟩ := exec_effect i s
  rw [hu] at h
  injection h with h
  exact h ▸ he

end Sys2Proof.Machine
end

