-- ==== Sys2Proof/Laws/PerInstr.lean ====
section
/-! SUPPORT. Facts of every instruction as syntax, one lemma per constructor. -/

namespace Sys2Proof.Laws.EncodedLength

/-- The encoding of `i` is as long as the length table says, 1 to 3 bytes, and begins with its opcode byte in both builds
(rules R50, R60). -/
def Statement (i : Instr) : Prop :=
  ∀ ext, (encode (Config.build ext) i).length = i.mnemonic.length ∧ 1 ≤ i.mnemonic.length ∧ i.mnemonic.length ≤ 3 ∧
    (encode (Config.build ext) i).head? = some (opcodeByte i.mnemonic)

/-- Every length of the table is 1, 2 or 3. -/
theorem length_bounds (m : Mnemonic) : 1 ≤ m.length ∧ m.length ≤ 3 := by cases m <;> decide

theorem hlt : Statement .hlt := fun _ => ⟨rfl, (length_bounds _).1, (length_bounds _).2, rfl⟩
theorem ret : Statement .ret := fun _ => ⟨rfl, (length_bounds _).1, (length_bounds _).2, rfl⟩
theorem push (a : Byte) : Statement (.push a) := fun _ => ⟨rfl, (length_bounds _).1, (length_bounds _).2, rfl⟩
theorem pop (a : Byte) : Statement (.pop a) := fun _ => ⟨rfl, (length_bounds _).1, (length_bounds _).2, rfl⟩
theorem prn (a : Byte) : Statement (.prn a) := fun _ => ⟨rfl, (length_bounds _).1, (length_bounds _).2, rfl⟩
theorem call (a : Byte) : Statement (.call a) := fun _ => ⟨rfl, (length_bounds _).1, (length_bounds _).2, rfl⟩
theorem jmp (a : Byte) : Statement (.jmp a) := fun _ => ⟨rfl, (length_bounds _).1, (length_bounds _).2, rfl⟩
theorem jeq (a : Byte) : Statement (.jeq a) := fun _ => ⟨rfl, (length_bounds _).1, (length_bounds _).2, rfl⟩
theorem jne (a : Byte) : Statement (.jne a) := fun _ => ⟨rfl, (length_bounds _).1, (length_bounds _).2, rfl⟩
theorem ldi (a imm : Byte) : Statement (.ldi a imm) := fun _ => ⟨rfl, (length_bounds _).1, (length_bounds _).2, rfl⟩
theorem add (a b : Byte) : Statement (.add a b) := fun _ => ⟨rfl, (length_bounds _).1, (length_bounds _).2, rfl⟩
theorem mul (a b : Byte) : Statement (.mul a b) := fun _ => ⟨rfl, (length_bounds _).1, (length_bounds _).2, rfl⟩
theorem cmp (a b : Byte) : Statement (.cmp a b) := fun _ => ⟨rfl, (length_bounds _).1, (length_bounds _).2, rfl⟩

end Sys2Proof.Laws.EncodedLength
end

