-- ==== Sys2Proof/Tests/Slice0.lean ====
section
/-! SUPPORT. The model's own tests. Every expected result is the spec's: the vectors V<n> of 95_test_vectors.md part 2, the words of
rules R55 and R56, the object file of rule R62. Then, for every statement of Certificates/Slice0/Obligations.lean that has
hypotheses, a witness that meets them. -/

namespace Sys2Proof.Tests

open Sys2Proof Sys2Proof.Machine

/-- The reset state with `pc` and the listed cells set ("How to read the vectors"). -/
def start (pc0 : PcWord) (cells : List Host.Cell) : State :=
  { State.reset with pc := pc0, mem := cells.foldl (fun m c => m.write c.1 c.2) [] }

/-- The next state of an outcome, if it is one. -/
def nextOf : Host.Outcome State Fault Refusal → Option State
  | .next t => some t
  | .fault _ => none
  | .refused _ => none

/-- One step. -/
def after (s : State) : Option State := nextOf (step s)

/-! ### WellFormed: one ill-formed term for each check, each refused -/

theorem test_illFormed_oneRegister :
    wellFormed (.push 8) = false ∧ wellFormed (.pop 0x80) = false ∧ wellFormed (.prn 0xFF) = false ∧
      wellFormed (.call 8) = false ∧ wellFormed (.jmp 9) = false ∧ wellFormed (.jeq 16) = false ∧
      wellFormed (.jne 8) = false ∧ wellFormed (.ldi 8 0) = false := by decide

theorem test_illFormed_twoRegisters :
    wellFormed (.add 8 0) = false ∧ wellFormed (.add 0 8) = false ∧ wellFormed (.mul 0x80 7) = false ∧
      wellFormed (.mul 7 0x80) = false ∧ wellFormed (.cmp 0xFF 1) = false ∧ wellFormed (.cmp 1 0xFF) = false := by decide

theorem test_wellFormed_boundary :
    wellFormed .hlt = true ∧ wellFormed .ret = true ∧ wellFormed (.push 7) = true ∧ wellFormed (.ldi 7 0xFF) = true ∧
      wellFormed (.add 7 7) = true := by decide

/-! ### Decode: every constructor's word, bit by bit (rules R55, R56) -/

theorem test_decode_base :
    decode Config.core 0b00000001 0b11111111 0b11111111 = .ok .hlt ∧
      decode Config.core 0b00010001 0b11111111 0b11111111 = .ok .ret ∧
      decode Config.core 0b01000101 0b00000101 0b11111111 = .ok (.push 5) ∧
      decode Config.core 0b01000110 0b00000110 0b11111111 = .ok (.pop 6) ∧
      decode Config.core 0b01000111 0b00000111 0b11111111 = .ok (.prn 7) ∧
      decode Config.core 0b01010000 0b00000001 0b11111111 = .ok (.call 1) ∧
      decode Config.core 0b10000010 0b00000011 0b10000001 = .ok (.ldi 3 0x81) ∧
      decode Config.core 0b10100000 0b00000001 0b00000010 = .ok (.add 1 2) ∧
      decode Config.core 0b10100010 0b00000010 0b00000001 = .ok (.mul 2 1) := by decide

theorem test_decode_extension :
    decode Config.core 0b10100111 0b00000100 0b00000101 = .ok (.cmp 4 5) ∧
      decode Config.core 0b01010100 0b00000011 0b00000000 = .ok (.jmp 3) ∧
      decode Config.core 0b01010101 0b00000011 0b00000000 = .ok (.jeq 3) ∧
      decode Config.core 0b01010110 0b00000011 0b00000000 = .ok (.jne 3) ∧
      decode (Config.build false) 0xA7 0 1 = .error (.unknownOpcode 0xA7) ∧
      decode (Config.build false) 0x54 3 0 = .error (.unknownOpcode 0x54) ∧
      decode (Config.build false) 0x55 3 0 = .error (.unknownOpcode 0x55) ∧
      decode (Config.build false) 0x56 3 0 = .error (.unknownOpcode 0x56) := by decide

/-- The near misses of the decoder vector, none of them an instruction in either build. -/
theorem test_decode_nearMisses :
    ∀ b ∈ [0x00, 0x02, 0x10, 0x12, 0x44, 0x48, 0x51, 0x52, 0x53, 0x57, 0x80, 0x81, 0x83, 0xA1, 0xA3, 0xA6, 0xA8, (0xFF : Byte)],
      dispatch (Config.build true) b = none ∧ dispatch (Config.build false) b = none := by decide

theorem test_encode : encode Config.core (.ldi 0 8) = [0x82, 0x00, 0x08] ∧ encode Config.core (.prn 0) = [0x47, 0x00] ∧
    encode Config.core .hlt = [0x01] := by decide

/-- The document's program (S1) parses as its three instructions. -/
theorem test_parse_S1 :
    parseProgram Config.core [0x82, 0x00, 0x08, 0x47, 0x00, 0x01] = .ok [.ldi 0 8, .prn 0, .hlt] := by decide

theorem test_parse_rejects : parseProgram Config.core [0x82, 0x00] = .error (.truncated .ldi) ∧
    parseProgram Config.core [0x01, 0x00] = .error (.unknownOpcode 0x00) := by decide

/-- Opcode-table words: the first byte is the least significant; a missing operand byte is 0. -/
theorem test_decodeTableWord : decodeTableWord 24 0x080382 = some (.ldi 3 8) ∧ decodeTableWord 8 0xA7 = some (.cmp 0 0) ∧
    decodeTableWord 8 0x0182 = some (.ldi 0 0) ∧ decodeTableWord 8 0x00 = none := by decide

theorem test_withFetchWord :
    (after (State.reset.withFetchWord 24 0x080382)).map (fun t => (t.getReg .r3, t.pc)) = some (0x08, 3) := by decide

/-! ### Execution loop, HLT, unknown opcodes -/

theorem test_V121_hlt : (after (start 0xFD [(0xFD, 0x01)])).map (fun t => (t.running, t.pc, t.halt)) =
    some (false, 0xFD, some ⟨.hlt, 0xFD, some 0x01, 0⟩) := by decide

theorem test_V122_fetchAtEnd : (after (start 0xFE [(0xFE, 0x01)])).map (fun t => t.halt) =
    some (some ⟨.outOfBounds, 0xFE, some 0x01, 256⟩) := by decide

theorem test_V124_fetchAt256 : (after (start 0x100 [])).map (fun t => t.halt) =
    some (some ⟨.outOfBounds, 0x100, none, 256⟩) := by decide

theorem test_V127_unknown : (after (start 0x10 [(0x10, 0x83), (0x12, 0x01)])).map (fun t => t.halt) =
    some (some ⟨.unknownOpcode, 0x10, some 0x83, 131⟩) := by decide

/-! ### Data move -/

theorem test_V129_ldi : (after (start 0xFD [(0xFD, 0x82), (0xFF, 0x07)])).map (fun t => (t.getReg .r0, t.pc, t.running)) =
    some (0x07, 0x100, true) := by decide

theorem test_V6_ldi : (after (start 0x10 [(0x10, 0x82), (0x11, 0xFF)])).map (fun t => t.halt) =
    some (some ⟨.invalidRegister, 0x10, some 0x82, 255⟩) := by decide

theorem test_V8_prn : (after (start 0x10 [(0x10, 0x47), (0x11, 0x07)])).map (fun t => (t.out, t.pc)) =
    some ([0xF4], 0x12) := by decide

theorem test_V11_prn : (after ((start 0x10 [(0x10, 0x47), (0x11, 0x01), (0x12, 0xFF)]).setReg .r1 0xFF)).map
    (fun t => (t.out, t.pc)) = some ([0xFF], 0x12) := by decide

/-! ### Arithmetic -/

theorem test_V20_add : (after (((start 0x10 [(0x10, 0xA0), (0x12, 0x01)]).setReg .r0 0xC8).setReg .r1 0x64)).map
    (fun t => (t.getReg .r0, t.getReg .r1, t.pc)) = some (0x2C, 0x64, 0x13) := by decide

theorem test_V24_add : (after (start 0x10 [(0x10, 0xA0), (0x11, 0x08), (0x12, 0xC8)])).map (fun t => t.halt) =
    some (some ⟨.invalidRegister, 0x10, some 0xA0, 8⟩) := by decide

theorem test_V33_mul : (after (((start 0x10 [(0x10, 0xA2), (0x12, 0x01)]).setReg .r0 0x13).setReg .r1 0x20)).map
    (fun t => (t.getReg .r0, t.getReg .r1, t.pc)) = some (0x60, 0x20, 0x13) := by decide

theorem test_V35_mul : (after ((start 0x10 [(0x10, 0xA2), (0x12, 0x09)]).setReg .r0 0x01)).map
    (fun t => (t.getReg .r0, t.halt)) = some (0x01, some ⟨.invalidRegister, 0x10, some 0xA2, 9⟩) := by decide

theorem test_V43_cmp : (after (((start 0x10 [(0x10, 0xA7), (0x12, 0x01)]).setReg .r0 0xFF).setReg .r1 0x01)).map
    (fun t => (t.fl, t.pc)) = some (0x02, 0x13) := by decide

theorem test_V44_cmp : (after ((start 0x10 [(0x10, 0xA7), (0x11, 0x04), (0x12, 0x04)]).setFl 0x04)).map
    (fun t => (t.fl, t.pc)) = some (0x01, 0x13) := by decide

/-! ### Stack -/

theorem test_V51_push : (after (start 0x10 [(0x10, 0x45), (0x11, 0x07)])).map
    (fun t => (t.getReg .r7, t.mem.read 0xF3, t.pc)) = some (0xF3, 0xF3, 0x12) := by decide

theorem test_V52_push : (after ((start 0x10 [(0x10, 0x45)]).setReg .r7 0x00)).map (fun t => (t.getReg .r7, t.halt)) =
    some (0x00, some ⟨.outOfBounds, 0x10, some 0x45, -1⟩) := by decide

theorem test_V64_pop : (after ((start 0x10 [(0x10, 0x46), (0x11, 0x07), (0xF3, 0x20)]).setReg .r7 0xF3)).map
    (fun t => (t.getReg .r7, t.pc)) = some (0x21, 0x12) := by decide

theorem test_V62_pop : (after ((start 0x10 [(0x10, 0x46), (0xFF, 0x33)]).setReg .r7 0xFF)).map
    (fun t => (t.getReg .r0, t.halt)) = some (0x00, some ⟨.outOfBounds, 0x10, some 0x46, 256⟩) := by decide

/-! ### Control transfer -/

theorem test_V72_call : (after (start 0x10 [(0x10, 0x50), (0x11, 0x07)])).map
    (fun t => (t.getReg .r7, t.mem.read 0xF3, t.pc)) = some (0xF3, 0x12, 0xF3) := by decide

theorem test_V75_call : (after ((start 0xFD [(0xFD, 0x50), (0xFE, 0x01)]).setReg .r1 0x30)).map
    (fun t => (t.mem.read 0xF3, t.pc)) = some (0xFF, 0x30) := by decide

theorem test_V83_ret : (after ((start 0x10 [(0x10, 0x11), (0x11, 0xFF), (0x12, 0xFF), (0xF3, 0xFF)]).setReg .r7 0xF3)).map
    (fun t => (t.getReg .r7, t.pc, t.running)) = some (0xF4, 0xFF, true) := by decide

theorem test_V82_ret : (after ((start 0x10 [(0x10, 0x11), (0xFF, 0x20)]).setReg .r7 0xFF)).map (fun t => t.halt) =
    some (some ⟨.outOfBounds, 0x10, some 0x11, 256⟩) := by decide

theorem test_V90_jmp : (after ((start 0x10 [(0x10, 0x54), (0x11, 0x03)]).setReg .r3 0x0C)).map (fun t => t.pc) =
    some 0x0C := by decide

theorem test_V93_jmp : after ((start 0x10 [(0x10, 0x54)]).setReg .r0 0x10) =
    some ((start 0x10 [(0x10, 0x54)]).setReg .r0 0x10) := by decide

theorem test_V101_jeq : (after (((start 0x10 [(0x10, 0x55), (0x11, 0x03)]).setReg .r3 0x20).setFl 0x04)).map
    (fun t => t.pc) = some 0x12 := by decide

theorem test_V104_jeq : (after (start 0x10 [(0x10, 0x55), (0x11, 0xFF)])).map (fun t => t.halt) =
    some (some ⟨.invalidRegister, 0x10, some 0x55, 255⟩) := by decide

theorem test_V110_jne : (after (((start 0x10 [(0x10, 0x56), (0x11, 0x03)]).setReg .r3 0x0C).setFl 0x02)).map
    (fun t => t.pc) = some 0x0C := by decide

theorem test_V112_jne : (after (((start 0x10 [(0x10, 0x56), (0x11, 0x03)]).setReg .r3 0x0C).setFl 0x01)).map
    (fun t => t.pc) = some 0x12 := by decide

/-- V45, in the build without the extension. -/
theorem test_V45_extensionAbsent :
    (nextOf (cycle (Config.build false) (start 0x10 [(0x10, 0xA7), (0x12, 0x01)]))).map (fun t => t.halt) =
      some (some ⟨.unknownOpcode, 0x10, some 0xA7, 167⟩) := by decide

/-! ### The host's side -/

/-- The document's object file (rule R62), its first two lines. -/
theorem test_objectFile :
    objectBytes ['1','0','0','0','0','0','1','0',' ','#',' ','L','D','I','\n','\n',' ','0','0','0','0','1','0','0','0','\r'] =
      some [0x82, 0x08] := by decide

theorem test_objectFile_malformed : objectBytes ['1','0','2','0','0','0','1','0'] = none ∧
    objectBytes ['1','0','1'] = none := by decide

theorem test_render : renderOut [8, 0, 244] = [['8'], ['0'], ['2', '4', '4']] := by decide

theorem test_launch_S1 : (launch [0x82, 0x00, 0x08]).map (fun s => (s.mem.read 0, s.mem.read 2, s.mem.read 3, s.pc)) =
    some (0x82, 0x08, 0x00, 0) := by decide

/-! ### Witnesses of the statements' hypotheses

Boundary values are taken where a hypothesis is a range: 253 and 254 for `pc`, 7 and 8 for an index, 0x00, 0x01, 0xFE and 0xFF
for R7. -/

/-- The bad index 8, the register R7 and `pc = 253`, as the instruction statements' hypotheses have them. -/
theorem witness_operands : 7 < (8 : Byte).toNat ∧ (start 0xFD []).pc.toNat ≤ 253 ∧ (Reg.index .r7).toNat = 7 := by decide

theorem witness_LaunchWritesProgramFromZero :
    (List.replicate 256 (0x01 : Byte)).length ≤ 256 ∧ 256 < (List.replicate 257 (0x01 : Byte)).length ∧
      ([0x82, 0x00] : List Byte)[1]? = some 0x00 ∧ ([0x82] : List Byte).length ≤ 1 :=
  ⟨by rw [List.length_replicate], by rw [List.length_replicate]; decide, by decide, by decide⟩

/-- A state that runs the three-byte instruction at 253. -/
theorem witness_StepRunsDecodedInstruction :
    Runs (Config.build true) (start 0xFD [(0xFD, 0x82), (0xFF, 0x07)]) (.ldi 0 7) := ⟨rfl, by decide, rfl⟩

theorem witness_FetchNearMemoryEndStops :
    (start 0xFE []).running = true ∧ 254 ≤ (start 0xFE []).pc.toNat ∧ (start 0xFE []).pc.toNat ≤ 256 ∧
      (start 0x100 []).running = true ∧ (start 0x100 []).pc.toNat = 256 ∧ (start 0xFF []).pc.toNat < 256 := by decide

theorem witness_UnknownOpcodeHaltsGracefully :
    (start 0xFD [(0xFD, 0xFF)]).running = true ∧ (start 0xFD [(0xFD, 0xFF)]).pc.toNat ≤ 253 ∧
      dispatch (Config.build true) ((start 0xFD [(0xFD, 0xFF)]).mem.read 0xFD) = none := by decide

/-- A Running state and a Halted one. -/
theorem witness_OnlyRunningStatesHaveSuccessors :
    (start 0x10 []).running = true ∧ ((start 0x10 []).haltWith .hlt 0).running = false := by decide

/-- A run of one step that ends Halted, from a Running state. -/
theorem witness_RunEndsAtFirstHalt :
    ∃ t, run (Config.build true) 1 (start 0x10 [(0x10, 0x01)]) = .next t ∧ t.running = false := ⟨_, rfl, rfl⟩

theorem witness_DispatchIsTheOpcodeMap :
    dispatch (Config.build true) 0xA7 = some .cmp ∧ dispatch (Config.build false) 0x01 = some .hlt ∧
      dispatch (Config.build true) 0x01 = some .hlt := by decide

/-- The one-byte instruction, filled up to the three fetched bytes, and an extension instruction in its build. -/
theorem witness_EncodedInstructionDecodesBack :
    Mnemonic.present (Config.build false) (Instr.mnemonic .hlt) = true ∧
      encode (Config.build false) .hlt ++ [0xAA, 0xBB, 0xCC] = 0x01 :: 0xAA :: 0xBB :: [0xCC] ∧
      Mnemonic.present (Config.build true) (Instr.mnemonic (.cmp 0xFF 7)) = true ∧
      encode (Config.build true) (.cmp 0xFF 7) ++ [] = 0xA7 :: 0xFF :: 7 :: [] := by decide

theorem witness_DecodedBytesBeginWithTheEncoding :
    decode (Config.build false) 0x11 0xFF 0xFF = .ok .ret ∧ decode (Config.build true) 0x56 0xFF 0 = .ok (.jne 0xFF) := by decide

theorem witness_EncodedProgramParsesBack :
    ∀ i ∈ [Instr.ldi 0 8, .cmp 0xFF 1, .hlt], i.mnemonic.present (Config.build true) = true := by decide

theorem witness_IgnoredBytesHaveNoInfluence :
    dispatch (Config.build false) 0x11 = some .ret ∧ Mnemonic.format .ret = .z ∧
      dispatch (Config.build true) 0x54 = some .jmp ∧ Mnemonic.format .jmp = .r := by decide

theorem witness_BuildsDifferOnlyInExtensionBytes :
    (start 0x10 [(0x10, 0x82)]).mem.read (start 0x10 [(0x10, 0x82)]).pc.toNat ∉ [0xA7, 0x54, 0x55, 0x56] ∧
      (start 0xFD [(0xFD, 0x56)]).running = true ∧ (start 0xFD [(0xFD, 0x56)]).pc.toNat ≤ 253 ∧
      (start 0xFD [(0xFD, 0x56)]).mem.read (start 0xFD [(0xFD, 0x56)]).pc.toNat ∈ [0xA7, 0x54, 0x55, 0x56] := by decide

/-- LDI, PRN, ADD, MUL, JMP, JEQ, JNE: a Running state at 253 and the bad index 8, in each position. -/
theorem witness_LdiWritesItsImmediate : (start 0xFD []).pc.toNat ≤ 253 ∧ 7 < (8 : Byte).toNat := by decide
theorem witness_PrnEmitsTheRegister : (start 0xFD []).pc.toNat ≤ 253 ∧ 7 < (8 : Byte).toNat := by decide
theorem witness_AddWritesTheSumModulo256 : (start 0xFD []).pc.toNat ≤ 253 ∧ 7 < (8 : Byte).toNat := by decide
theorem witness_MulWritesTheProductModulo256 : (start 0xFD []).pc.toNat ≤ 253 ∧ 7 < (8 : Byte).toNat := by decide

/-- CMP: the three orders of two registers. -/
theorem witness_CmpWritesExactlyOneFlag :
    (start 0xFD []).pc.toNat ≤ 253 ∧ ((start 0xFD []).getReg .r0).toNat < ((start 0xFD []).getReg .r7).toNat ∧
      (start 0xFD []).getReg .r0 = (start 0xFD []).getReg .r1 ∧ 7 < (8 : Byte).toNat := by decide

/-- PUSH with room for one byte, with none, and with a bad index. -/
theorem witness_PushDecrementsThenStores :
    ((start 0xFD [(0x20, 1)]).setReg .r7 0x01).mem.wf ∧ ((start 0xFD []).setReg .r7 0x01).pc.toNat ≤ 253 ∧
      ((start 0xFD []).setReg .r7 0x01).getReg .r7 ≠ 0x00 ∧
      pushAddress ((start 0xFD []).setReg .r7 0x01) = .ok 0x00 ∧
      ((start 0xFD []).setReg .r7 0x00).getReg .r7 = 0x00 ∧ 7 < (8 : Byte).toNat := by
  refine ⟨by decide, by decide, by decide, rfl, by decide, by decide⟩

/-- POP at the last pointer that succeeds, into R7, at both limits and with a bad index. -/
theorem witness_PopLoadsThenIncrements :
    Reg.r0 ≠ Reg.r7 ∧ ((start 0xFD []).setReg .r7 0xFE).pc.toNat ≤ 253 ∧ ((start 0xFD []).setReg .r7 0xFE).getReg .r7 ≠ 0xFF ∧
      (start 0xFD [(0xF4, 0xFE)]).mem.read ((start 0xFD [(0xF4, 0xFE)]).getReg .r7).toNat ≠ 0xFF ∧
      ((start 0xFD []).setReg .r7 0xFF).getReg .r7 = 0xFF ∧
      (start 0xFD [(0xF4, 0xFF)]).mem.read ((start 0xFD [(0xF4, 0xFF)]).getReg .r7).toNat = 0xFF ∧ 7 < (8 : Byte).toNat := by
  decide

/-- CALL at 253 with room for one byte, with none, and with a bad index. -/
theorem witness_CallPushesReturnAddressAndJumps :
    ((start 0xFD [(0x20, 1)]).setReg .r7 0x01).mem.wf ∧ ((start 0xFD []).setReg .r7 0x01).pc.toNat ≤ 253 ∧
      ((start 0xFD []).setReg .r7 0x01).getReg .r7 ≠ 0x00 ∧
      pushAddress ((start 0xFD []).setReg .r7 0x01) = .ok 0x00 ∧
      ((start 0xFD []).setReg .r7 0x00).getReg .r7 = 0x00 ∧ 7 < (8 : Byte).toNat := by
  refine ⟨by decide, by decide, by decide, rfl, by decide, by decide⟩

theorem witness_RetPopsTheProgramCounter :
    ((start 0x10 []).setReg .r7 0xFE).getReg .r7 ≠ 0xFF ∧ ((start 0x10 []).setReg .r7 0xFF).getReg .r7 = 0xFF := by decide

theorem witness_JmpRedirectsAlways : 7 < (8 : Byte).toNat := by decide

/-- JEQ: E set and E clear. -/
theorem witness_JeqRedirectsWhenEqual :
    (start 0xFD []).pc.toNat ≤ 253 ∧ ((start 0xFD []).setFl 0x01).fl.getLsbD 0 = true ∧
      ((start 0xFD []).setFl 0x04).fl.getLsbD 0 = false ∧ 7 < (8 : Byte).toNat := by decide

/-- JNE: E set and E clear. -/
theorem witness_JneRedirectsWhenNotEqual :
    (start 0xFD []).pc.toNat ≤ 253 ∧ ((start 0xFD []).setFl 0x01).fl.getLsbD 0 = true ∧
      ((start 0xFD []).setFl 0x02).fl.getLsbD 0 = false ∧ 7 < (8 : Byte).toNat := by decide

theorem witness_HltStopsTheMachine :
    (start 0xFD [(0xFD, 0x01)]).running = true ∧ (start 0xFD [(0xFD, 0x01)]).pc.toNat ≤ 253 ∧
      (start 0xFD [(0xFD, 0x01)]).mem.read (start 0xFD [(0xFD, 0x01)]).pc.toNat = 0x01 ∧
      (start 0xFE [(0xFE, 0x01)]).running = true ∧ 254 ≤ (start 0xFE [(0xFE, 0x01)]).pc.toNat := by decide

theorem witness_CompareSetsExactlyOneBit :
    (0x00 : Byte).toNat < (0xFF : Byte).toNat ∧ (0xFF : Byte) = 0xFF := by decide

theorem witness_ArithmeticLawsHold : alu .add 0x00 0xFF = .ok 0xFF := rfl

theorem witness_UnsupportedOperationIsUnreachable :
    (start 0x10 [(0x10, 0xA0)]).halt = none ∧ ∃ t, cycle (Config.build true) (start 0x10 [(0x10, 0xA0)]) = .next t :=
  ⟨rfl, _, rfl⟩

/-- In range at both ends, and out of range on both sides. -/
theorem witness_MemoryKeepsItsContract :
    (start 0x10 [(0xFF, 1)]).mem.wf ∧ (0 : Int) ≤ 0 ∧ (255 : Int) ≤ 255 ∧ (-1 : Int) < 0 ∧ (255 : Int) < 256 := by decide

theorem witness_CanonicalMemoryIsWhatItReads :
    (start 0x10 [(0xFF, 1), (0x00, 2)]).mem.wf ∧ (start 0x10 [(0x00, 2), (0xFF, 1)]).mem.wf ∧
      ∀ a, a < 256 → (start 0x10 [(0xFF, 1), (0x00, 2)]).mem.read a = (start 0x10 [(0x00, 2), (0xFF, 1)]).mem.read a :=
  ⟨by decide, by decide, fun _ _ => rfl⟩

theorem witness_RegisterFileKeepsItsContract :
    (7 : Byte).toNat ≤ 7 ∧ checkReg 7 = .ok .r7 ∧ 7 < (8 : Byte).toNat := ⟨by decide, rfl, by decide⟩

/-- A cycle that stays in Running and one that halts, from states without a halt record at the highest `pc`. -/
theorem witness_HaltsArePreciseAndRecorded :
    (∃ t, cycle (Config.build true) (start 0xFD [(0xFD, 0x82)]) = .next t ∧ t.running = true) ∧
      (start 0x100 []).halt = none ∧ (start 0x100 []).pc.toNat ≤ 256 ∧
      ∃ t, cycle (Config.build true) (start 0x100 []) = .next t ∧ t.running = false :=
  ⟨⟨_, rfl, rfl⟩, rfl, by decide, _, rfl, rfl⟩

/-- One state for each clause of the priority order. -/
theorem witness_ConditionsComeInOrder :
    (254 ≤ (start 0xFE []).pc.toNat ∧ (start 0xFE []).running = true ∧ (start 0xFE []).pc.toNat ≤ 256) ∧
      dispatch (Config.build true) ((start 0xFD []).mem.read (start 0xFD []).pc.toNat) = none ∧
      Runs (Config.build true) ((start 0x10 [(0x10, 0x45), (0x11, 0x09)]).setReg .r7 0) (.push 9) ∧
      Runs (Config.build true) (start 0x10 [(0x10, 0xA0), (0x11, 0x07), (0x12, 0x08)]) (.add 7 8) ∧
      Runs (Config.build true) ((start 0x10 [(0x10, 0x50), (0x11, 0x07)]).setReg .r7 0) (.call (Reg.index .r7)) ∧
      Runs (Config.build true) ((start 0x10 [(0x10, 0x46)]).setReg .r7 0xFF) (.pop (Reg.index .r0)) ∧
      Runs (Config.build true) ((start 0x10 [(0x10, 0x11)]).setReg .r7 0xFF) .ret ∧
      7 < (9 : Byte).toNat ∧ (7 : Byte).toNat ≤ 7 ∧ 7 < (8 : Byte).toNat ∧
      ((start 0x10 []).setReg .r7 0).getReg .r7 = 0x00 ∧ ((start 0x10 []).setReg .r7 0xFF).getReg .r7 = 0xFF :=
  ⟨by decide, by decide, ⟨rfl, by decide, rfl⟩, ⟨rfl, by decide, rfl⟩, ⟨rfl, by decide, rfl⟩, ⟨rfl, by decide, rfl⟩,
    ⟨rfl, by decide, rfl⟩, by decide, by decide, by decide, rfl, rfl⟩

/-- A state without a halt record and a cycle from it; it halts with OutOfBounds, by the lower stack limit. -/
theorem witness_OutOfBoundsExactlyInItsSituations :
    ((start 0x10 [(0x10, 0x45)]).setReg .r7 0).halt = none ∧
      ∃ t, cycle (Config.build true) ((start 0x10 [(0x10, 0x45)]).setReg .r7 0) = .next t ∧ HaltedBy t .outOfBounds :=
  ⟨rfl, _, rfl, _, rfl, rfl⟩

theorem witness_InvalidRegisterExactlyOnBadIndex :
    (start 0x10 [(0x10, 0xA0), (0x12, 0x08)]).halt = none ∧
      (∃ t, cycle (Config.build true) (start 0x10 [(0x10, 0xA0), (0x12, 0x08)]) = .next t ∧ HaltedBy t .invalidRegister) ∧
      Runs (Config.build true) (start 0x10 [(0x10, 0xA0), (0x12, 0x08)]) (.add 0 8) ∧
      (registerOperands (.add 0 8)).find? (fun x => 7 < x.toNat) = some 8 :=
  ⟨rfl, ⟨_, rfl, _, rfl, rfl⟩, ⟨rfl, by decide, rfl⟩, rfl⟩

theorem witness_NormalEndExactlyAtHlt :
    (start 0xFD [(0xFD, 0x01)]).halt = none ∧
      ∃ t, cycle (Config.build true) (start 0xFD [(0xFD, 0x01)]) = .next t ∧ EndsNormally t :=
  ⟨rfl, _, rfl, rfl, _, rfl, rfl⟩

/-- An instruction that stays in Running and one that does not. -/
theorem witness_PcMovesByTheTable :
    Runs (Config.build true) (start 0xFD [(0xFD, 0x82)]) (.ldi 0 0) ∧
      (∃ t, exec (.ldi 0 0) (start 0xFD [(0xFD, 0x82)]) = .next t ∧ t.running = true) ∧
      Runs (Config.build true) (start 0xFD [(0xFD, 0x01)]) .hlt ∧
      ∃ t, exec .hlt (start 0xFD [(0xFD, 0x01)]) = .next t ∧ t.running = false :=
  ⟨⟨rfl, by decide, rfl⟩, ⟨_, rfl, rfl⟩, ⟨rfl, by decide, rfl⟩, _, rfl, rfl⟩

theorem witness_OutputGrowsOnlyByPrn :
    ∃ t, cycle (Config.build true) (start 0x10 [(0x10, 0x47)]) = .next t ∧ t.out = [0x00] := ⟨_, rfl, rfl⟩

theorem witness_FlagsChangeOnlyAtCmp :
    ∃ t, cycle (Config.build true) (start 0x10 [(0x10, 0xA7)]) = .next t ∧ t.fl = 0x01 := ⟨_, rfl, rfl⟩

theorem witness_OnlyPushAndCallStore :
    (start 0x10 [(0x10, 0x45), (0x11, 0x07)]).mem.wf ∧
      ∃ t, cycle (Config.build true) (start 0x10 [(0x10, 0x45), (0x11, 0x07)]) = .next t ∧
        t.mem.read 0xF3 ≠ (start 0x10 [(0x10, 0x45), (0x11, 0x07)]).mem.read 0xF3 := ⟨by decide, _, rfl, by decide⟩

theorem witness_RegistersChangeOnlyAsNamed :
    ∃ t, cycle (Config.build true) (start 0x10 [(0x10, 0x45)]) = .next t ∧
      t.getReg .r7 ≠ (start 0x10 [(0x10, 0x45)]).getReg .r7 := ⟨_, rfl, by decide⟩

/-- A state that meets the invariant with a flag set, a moved stack and a non-empty Memory, and its cycle. -/
theorem witness_StepKeepsInvariant :
    ((start 0xFD [(0xFD, 0x01)]).setFl 0x02).Inv ∧
      ∃ t, cycle (Config.build true) ((start 0xFD [(0xFD, 0x01)]).setFl 0x02) = .next t ∧
        step ((start 0xFD [(0xFD, 0x01)]).setFl 0x02) = .next t :=
  ⟨⟨by decide, by decide, by decide, by decide, fun _ h => by cases h⟩, _, rfl, rfl⟩

/-- A launch state of each build that is reachable by definition. -/
theorem witness_ReachableStatesMeetInvariant : ∃ s, Reachable (Config.build true) s := ⟨_, .launch [0x01] _ rfl⟩
theorem witness_FlagsStayZeroWithoutExtension : ∃ s, Reachable (Config.build false) s := ⟨_, .launch [0x01] _ rfl⟩

/-- PUSH R0, POP R1 at 251 with R7 = 1: the lowest pointer and the highest address. -/
theorem witness_PushThenPopRestores :
    ((start 0xFB [(0xFB, 0x45), (0xFD, 0x46), (0xFE, 0x01)]).setReg .r7 0x01).mem.wf ∧ Reg.r0 ≠ Reg.r7 ∧ Reg.r1 ≠ Reg.r7 ∧
      ((start 0xFB []).setReg .r7 0x01).getReg .r7 ≠ 0x00 ∧ (start 0xFB []).pc.toNat ≤ 251 ∧
      (((start 0xFB []).setReg .r7 0x01).getReg .r7).toNat ≠ (start 0xFB []).pc.toNat + 3 ∧
      (((start 0xFB []).setReg .r7 0x01).getReg .r7).toNat ≠ (start 0xFB []).pc.toNat + 4 ∧
      Runs (Config.build true) ((start 0xFB [(0xFB, 0x45), (0xFD, 0x46), (0xFE, 0x01)]).setReg .r7 0x01)
        (.push (Reg.index .r0)) ∧
      ((start 0xFB [(0xFB, 0x45), (0xFD, 0x46), (0xFE, 0x01)]).setReg .r7 0x01).mem.read (0xFB + 2) = 0x46 ∧
      ((start 0xFB [(0xFB, 0x45), (0xFD, 0x46), (0xFE, 0x01)]).setReg .r7 0x01).mem.read (0xFB + 3) = Reg.index .r1 :=
  ⟨by decide, by decide, by decide, by decide, by decide, by decide, by decide, ⟨rfl, by decide, rfl⟩, by decide, by decide⟩

/-- CALL R1 at 6, and a RET that finds R7 and the cell as the CALL left them. -/
theorem witness_CallThenReturnResumes :
    ∃ t u, (start 0x06 [(0x06, 0x50), (0x07, 0x01), (0x0B, 0x11)]).mem.wf ∧
      (start 0x06 [(0x06, 0x50), (0x07, 0x01), (0x0B, 0x11)]).getReg .r7 ≠ 0x00 ∧
      Runs (Config.build true) ((start 0x06 [(0x06, 0x50), (0x07, 0x01), (0x0B, 0x11)]).setReg .r1 0x0B)
        (.call (Reg.index .r1)) ∧
      cycle (Config.build true) ((start 0x06 [(0x06, 0x50), (0x07, 0x01), (0x0B, 0x11)]).setReg .r1 0x0B) = .next t ∧
      Runs (Config.build true) u .ret ∧ u.getReg .r7 = t.getReg .r7 ∧
      u.mem.read (u.getReg .r7).toNat = t.mem.read (t.getReg .r7).toNat := by
  refine ⟨_, _, by decide, by decide, ⟨rfl, by decide, rfl⟩, rfl, ⟨?_, ?_, ?_⟩, rfl, rfl⟩ <;> first | rfl | decide

theorem witness_EqualJumpsAreComplements : (start 0xFD []).pc.toNat ≤ 253 := by decide

/-- JMP R0 at 253 with R0 = 253. -/
theorem witness_JumpToItselfNeverHalts :
    Runs (Config.build true) ((start 0xFD [(0xFD, 0x54)]).setReg .r0 0xFD) (.jmp (Reg.index .r0)) ∧
      (((start 0xFD [(0xFD, 0x54)]).setReg .r0 0xFD).getReg .r0).toNat =
        ((start 0xFD [(0xFD, 0x54)]).setReg .r0 0xFD).pc.toNat := ⟨⟨rfl, by decide, rfl⟩, by decide⟩

/-- PUSH R1 at 251 onto 253, and CALL R7 at the highest pointer whose target can be fetched. -/
theorem witness_StoreIsSeenByTheNextFetch :
    (start 0xFB [(0xFB, 0x45), (0xFC, 0x01)]).mem.wf ∧
      Runs (Config.build true) ((start 0xFB [(0xFB, 0x45), (0xFC, 0x01)]).setReg .r7 0xFE) (.push (Reg.index .r1)) ∧
      (start 0xFB []).pc.toNat ≤ 251 ∧ (((start 0xFB []).setReg .r7 0xFE).getReg .r7).toNat = (start 0xFB []).pc.toNat + 3 ∧
      Reg.r1 ≠ Reg.r7 ∧
      Runs (Config.build true) ((start 0x10 [(0x10, 0x50), (0x11, 0x07)]).setReg .r7 0xFE) (.call (Reg.index .r7)) ∧
      ((start 0x10 []).setReg .r7 0xFE).getReg .r7 ≠ 0x00 ∧ (((start 0x10 []).setReg .r7 0xFE).getReg .r7).toNat ≤ 254 :=
  ⟨by decide, ⟨rfl, by decide, rfl⟩, by decide, by decide, by decide, ⟨rfl, by decide, rfl⟩, by decide, by decide⟩

theorem witness_PlacedWordIsTheNextInstruction :
    (start 0xFD [(0x10, 1)]).mem.wf ∧ decodeTableWord 24 0x080382 = some (.ldi 3 8) ∧ (start 0xFD [(0x10, 1)]).running = true ∧
      (start 0xFD [(0x10, 1)]).pc.toNat ≤ 253 := by decide

theorem witness_OutputIsShownInDecimal :
    ([0x05, 0xFF] : List Byte)[1]? = some 0xFF ∧ (decimalDigits 0x00).head? = some 0 := by decide

theorem witness_TraceSamplesTheNextFetch : (start 0xFD []).pc.toNat ≤ 253 := by decide

theorem witness_StatusCodesFollowTheTable :
    (start 0x10 []).halt = none ∧ ((start 0x10 []).haltWith .hlt 0).halt = some ⟨.hlt, 0x10, some 0x00, 0⟩ := by decide

end Sys2Proof.Tests
end

section
/-! PROOF. The parameters of rule R4: each shared operation succeeds exactly within its parameter's bound, and the table. -/

namespace Sys2Proof.Machine

/-! ### Where each operation succeeds -/

/-- A word of `w` bits takes exactly the values below `2 ^ w`. -/
theorem exists_toNat_eq_iff (w n : Nat) : (∃ v : BitVec w, v.toNat = n) ↔ n < 2 ^ w := by
  constructor
  · rintro ⟨v, rfl⟩
    exact v.isLt
  · exact fun h => ⟨BitVec.ofNatLT n h, BitVec.toNat_ofNatLT n h⟩

/-- The legal register operands (rules R12, R52). -/
theorem checkReg_succeeds_iff (a : Byte) : (∃ r, checkReg a = .ok r) ↔ a.toNat < 8 := by
  constructor
  · rintro ⟨r, h⟩
    rw [checkReg_eq_ok.1 h]
    exact Nat.lt_succ_of_le (index_le r)
  · intro h
    obtain ⟨r, rfl⟩ := (index_cases a).resolve_right (by omega)
    exact ⟨r, checkReg_index r⟩

/-- The valid addresses of a read (rule R31). -/
theorem memRead_succeeds_iff (s : State) (addr : Int) : (∃ v, s.memRead addr = .ok v) ↔ 0 ≤ addr ∧ addr < 256 := by
  constructor
  · rintro ⟨v, h⟩
    by_contra hr
    rw [memRead_out s hr] at h
    cases h
  · rintro ⟨h0, h1⟩
    obtain ⟨n, rfl⟩ := Int.eq_ofNat_of_zero_le h0
    exact ⟨_, memRead_in s (by omega)⟩

/-- The program counters at which three bytes can be fetched (rule R72). -/
theorem fetch_succeeds_iff (s : State) : (∃ f, fetch s = .ok f) ↔ s.pc.toNat + 3 ≤ 256 := by
  constructor
  · rintro ⟨f, hf⟩
    by_contra h
    by_cases h' : s.pc.toNat ≤ 256
    · rw [fetch_end (by omega) h'] at hf
      cases hf
    · rw [fetch_beyond (by omega)] at hf
      cases hf
  · exact fun h => ⟨_, fetch_ok (by omega)⟩

/-- A push has room exactly off the lower limit (rule R111). -/
theorem stackReserve_succeeds_iff (s : State) : (∃ t, stackReserve s = .ok t) ↔ s.getReg .r7 ≠ 0 := by
  constructor
  · rintro ⟨t, ht⟩ h
    rw [stackReserve_zero h] at ht
    cases ht
  · exact fun h => ⟨_, stackReserve_pos h⟩

/-- A pop can move the pointer exactly off the upper limit (rule R112). -/
theorem stackRelease_succeeds_iff (s : State) : (∃ t, stackRelease s = .ok t) ↔ s.getReg .r7 ≠ 0xFF := by
  constructor
  · rintro ⟨t, ht⟩ h
    rw [stackRelease_top h] at ht
    cases ht
  · exact fun h => ⟨_, stackRelease_below h⟩

/-! ### The table -/

/-- Settles O60: the table is the record's own values; the machine's limits are where its operations succeed. -/
theorem parametersAreThoseOfTheTable : Obligations.ParametersAreThoseOfTheTable := by
  unfold Obligations.ParametersAreThoseOfTheTable
  constructor
  · intro ext
    exact ⟨rfl, rfl, rfl, rfl, rfl, rfl, rfl, rfl, rfl, rfl, rfl, rfl, rfl, rfl, rfl, rfl, rfl, rfl, rfl⟩
  · intro ext
    exact ⟨exists_toNat_eq_iff 8, exists_toNat_eq_iff 9, exists_toNat_eq_iff 8, checkReg_succeeds_iff, sp_eq, rfl,
      memRead_succeeds_iff, fetch_succeeds_iff, stackReserve_succeeds_iff, stackRelease_succeeds_iff, fun _ => rfl⟩

end Sys2Proof.Machine
end

section
/-! PROOF. The Register File's contract, the reset state, and the statements over every cycle: the moves of `pc`, what changes
`FL` and the output channel, and the invariant of the reachable states (rules R12, R15, R16, R19, R22, R23). -/

namespace Sys2Proof.Machine

/-! ### The Register File -/

/-- Settles O36: `CheckReg` accepts exactly the bytes `r.index`, and the laws of `get` after `set`. -/
theorem registerFileKeepsItsContract : Obligations.RegisterFileKeepsItsContract := by
  unfold Obligations.RegisterFileKeepsItsContract
  refine ⟨fun a ha => ?_, fun a b r ha hb => ?_, fun a => checkReg_above, fun s r v => ?_⟩
  · obtain ⟨r, rfl⟩ := (index_cases a).resolve_right (by omega)
    exact ⟨r, checkReg_index r, rfl⟩
  · exact (checkReg_eq_ok.1 ha).trans (checkReg_eq_ok.1 hb).symm
  · exact ⟨getReg_setReg_same s r v, setReg_kept s r v⟩

/-! ### Reset and launch -/

/-- Settles O1: every field is the value that `Config.build` gives it; the registers by cases. -/
theorem resetLeavesStatedValues : Obligations.ResetLeavesStatedValues := by
  unfold Obligations.ResetLeavesStatedValues
  refine ⟨fun ext => ⟨read_nil, fun r hr => ?_, rfl, rfl, rfl, rfl, rfl, rfl⟩, rfl⟩
  cases r with
  | r7 => exact absurd rfl hr
  | _ => rfl

/-- The reset state with any canonical Memory meets the invariant. -/
theorem resetIn_with_mem_inv (ext : Bool) {m : Memory} (hm : m.wf) :
    State.Inv { State.resetIn (Config.build ext) with mem := m } where
  mem := hm
  pc := Nat.zero_le _
  fl := .inl rfl
  status := ⟨fun _ => rfl, fun _ => rfl⟩
  record := fun _ h => nomatch h

/-- Settles O2: reset leaves the empty list as Memory, which is canonical. -/
theorem resetMeetsInvariant : Obligations.ResetMeetsInvariant := by
  unfold Obligations.ResetMeetsInvariant
  exact ⟨fun ext => resetIn_with_mem_inv ext wf_nil, resetIn_with_mem_inv true wf_nil⟩

/-- A launch state is the reset state with a canonical Memory (rule R153). -/
theorem launchIn_eq_reset {ext : Bool} {p : List Byte} {s : State} (h : launchIn (Config.build ext) p = some s) :
    ∃ m : Memory, m.wf ∧ s = { State.resetIn (Config.build ext) with mem := m } := by
  by_cases hp : (Config.build ext).loadBase + p.length ≤ (Config.build ext).memSize
  · rw [launchIn_fits hp, Option.some.injEq] at h
    exact ⟨_, load_wf p [] 0 wf_nil hp, h.symm⟩
  · rw [launchIn_too_long (by omega)] at h
    cases h

/-! ### The instruction of a cycle -/

/-- The decoder selects by the dispatch table alone (rule R73). -/
theorem dispatch_of_decode {c : Config} {ir a b : Byte} {i : Instr} (h : decode c ir a b = .ok i) :
    dispatch c ir = some i.mnemonic := by
  unfold decode at h
  split at h
  · cases h
  · next m hm =>
    injection h with h
    rw [hm, ← h]
    cases m <;> rfl

/-- A decoded instruction has its handler in the build, under the opcode byte that was fetched (rules R54 to R56). -/
theorem present_and_opcode_of_decode {c : Config} {ir a b : Byte} {i : Instr} (h : decode c ir a b = .ok i) :
    i.mnemonic.present c = true ∧ c.opcode i.mnemonic = ir := by
  simpa using List.find?_some (dispatch_of_decode h)

/-- A cycle that runs HLT has fetched the byte 0x01 (rule R55). -/
theorem Runs.hlt_opcode {ext : Bool} {s : State} (h : Runs (Config.build ext) s .hlt) :
    s.mem.read s.pc.toNat = 0x01 :=
  (present_and_opcode_of_decode h.2.2).2.symm

/-- Without the extension no cycle runs CMP (rule R56). -/
theorem not_runs_cmp_core (s : State) (a b : Byte) : ¬Runs (Config.build false) s (.cmp a b) := fun h =>
  absurd (present_and_opcode_of_decode h.2.2).1 Bool.false_ne_true

/-- A cycle is one outcome of the instruction it runs, or a condition raised before any handler. -/
theorem cycle_effect {c : Config} {s t : State} (h : cycle c s = .next t) :
    (∃ i, Runs c s i ∧ Effect s i t) ∨ ∃ e, t = s.raise e := by
  obtain ⟨hr, ⟨-, e, -, ht⟩ | ⟨-, -, ht⟩ | ⟨hp, i, hd, hx⟩⟩ := cycle_cases h
  · exact .inr ⟨e, ht⟩
  · exact .inr ⟨_, ht⟩
  · exact .inl ⟨i, ⟨hr, hp, hd⟩, exec_cases hx⟩

/-! ### Output and flags -/

/-- Only PRN of a register emits (rule R19). -/
theorem Effect.out_eq {s t : State} {i : Instr} (h : Effect s i t) (hi : ∀ r : Reg, i ≠ .prn r.index) :
    t.out = s.out := by
  cases h with
  | prn r => exact absurd rfl (hi r)
  | jeq | jne => split <;> rfl
  | _ => rfl

/-- Only CMP of two registers writes `FL` (rule R16). -/
theorem Effect.fl_eq {s t : State} {i : Instr} (h : Effect s i t)
    (hi : ∀ ra rb : Reg, i ≠ .cmp ra.index rb.index) : t.fl = s.fl := by
  cases h with
  | cmp ra rb => exact absurd rfl (hi ra rb)
  | jeq | jne => split <;> rfl
  | _ => rfl

/-- The three outcomes of a comparison (rule R103). -/
theorem compareFlags_cases (a b : Byte) : compareFlags a b = 0x04 ∨ compareFlags a b = 0x02 ∨ compareFlags a b = 0x01 := by
  rw [compareFlags_eq]
  split
  · exact .inl rfl
  · split
    · exact .inr (.inl rfl)
    · exact .inr (.inr rfl)

/-- Settles O43: a cycle that runs PRN of a register is its handler; no other outcome touches the channel. -/
theorem outputGrowsOnlyByPrn : Obligations.OutputGrowsOnlyByPrn := by
  unfold Obligations.OutputGrowsOnlyByPrn
  intro ext s t h
  by_cases hp : ∃ r : Reg, Runs (Config.build ext) s (.prn r.index)
  · obtain ⟨r, hr⟩ := hp
    have ht := (hr.cycle_eq.trans (execPrn_index r s)).symm.trans h
    injection ht with ht
    exact .inr ⟨r, hr, ht ▸ rfl⟩
  · refine .inl ⟨?_, hp⟩
    obtain ⟨i, hi, he⟩ | ⟨e, rfl⟩ := cycle_effect h
    · exact he.out_eq fun r hir => hp ⟨r, hir ▸ hi⟩
    · rfl

/-- Settles O44: a cycle that runs CMP of two registers is its handler; no other outcome touches `FL`. -/
theorem flagsChangeOnlyAtCmp : Obligations.FlagsChangeOnlyAtCmp := by
  unfold Obligations.FlagsChangeOnlyAtCmp
  intro ext s t h
  by_cases hc : ∃ ra rb : Reg, Runs (Config.build ext) s (.cmp ra.index rb.index)
  · obtain ⟨ra, rb, hr⟩ := hc
    have ht := (hr.cycle_eq.trans (execCmp_index ra rb s)).symm.trans h
    injection ht with ht
    exact .inr ⟨ra, rb, hr, ht ▸ compareFlags_cases _ _⟩
  · refine .inl ⟨?_, hc⟩
    obtain ⟨i, hi, he⟩ | ⟨e, rfl⟩ := cycle_effect h
    · exact he.fl_eq fun ra rb hir => hc ⟨ra, rb, hir ▸ hi⟩
    · rfl

/-! ### Leaving Running -/

/-- `t` is `s` stopped with a halt record that describes `s` as its cause asks (rules R131, R135). -/
def HaltsAsRecorded (s t : State) : Prop :=
  ∃ k n, t = s.haltWith k n ∧ HaltRecord.Matches { cause := k, pc := s.pc, ir := s.opcodeAtPc, info := n } s

/-- After a fetch that passed, a halt records the opcode byte (rule R18). -/
theorem opcodeAtPc_fetched {s : State} (h : s.pc.toNat ≤ 253) : s.opcodeAtPc = some (s.mem.read s.pc.toNat) :=
  if_pos (by simp only [Config.core_memSize]; omega)

theorem haltWith_hlt_recorded {s : State} (hp : s.pc.toNat ≤ 253) (h : s.mem.read s.pc.toNat = 0x01) :
    HaltsAsRecorded s (s.haltWith .hlt 0) :=
  ⟨_, _, rfl, rfl, opcodeAtPc_eq s, rfl, by rw [opcodeAtPc_fetched hp, h]⟩

theorem raise_unknownOpcode_recorded {s : State} (hp : s.pc.toNat ≤ 253) :
    HaltsAsRecorded s (s.raise (.unknownOpcode (s.mem.read s.pc.toNat))) := by
  have hlt := (s.mem.read s.pc.toNat).isLt
  refine ⟨_, _, rfl, rfl, opcodeAtPc_eq s, ?_⟩
  refine ⟨by simp [opcodeAtPc_fetched hp, Condition.info], Int.natCast_nonneg _, ?_⟩
  simp only [Condition.info]
  omega

theorem raise_outOfBounds_recorded (s : State) {n : Int} (hn : n = -1 ∨ n = 256) :
    HaltsAsRecorded s (s.raise (.outOfBounds n)) :=
  ⟨_, _, rfl, rfl, opcodeAtPc_eq s, hn⟩

theorem raise_invalidRegister_recorded {s : State} (hp : s.pc.toNat ≤ 253) {a : Byte} (ha : 7 < a.toNat) :
    HaltsAsRecorded s (s.raise (.invalidRegister a)) := by
  have hlt := a.isLt
  refine ⟨_, _, rfl, rfl, opcodeAtPc_eq s, ?_⟩
  simp only [Condition.cause, Condition.info, opcodeAtPc_fetched hp]
  exact ⟨by omega, by omega, Option.some_ne_none _⟩

/-- What a handler does to the machine status: nothing, or a halt with its record. -/
theorem Effect.keeps_status_or_halts {ext : Bool} {s t : State} {i : Instr} (hi : Runs (Config.build ext) s i)
    (h : Effect s i t) : StatusKept s t ∨ HaltsAsRecorded s t := by
  have hp := hi.2.1
  cases h with
  | badIndex i a ha => exact .inr (raise_invalidRegister_recorded hp (by simpa using List.find?_some ha))
  | pushLimit | callLimit => exact .inr (raise_outOfBounds_recorded s (.inl rfl))
  | popLimit | retLimit => exact .inr (raise_outOfBounds_recorded s (.inr rfl))
  | hlt => exact .inr (haltWith_hlt_recorded hp hi.hlt_opcode)
  | jeq | jne => left; split <;> exact ⟨rfl, rfl⟩
  | _ => exact .inl ⟨rfl, rfl⟩

/-! ### The program counter -/

/-- E is bit 0 of `FL` (rule R16). -/
theorem flE_eq (s : State) : s.flE = s.fl.getLsbD 0 := rfl

/-- Settles O42: a halt leaves `pc`; every other outcome is an advance or a redirect that does not wrap. -/
theorem pcMovesByTheTable : Obligations.PcMovesByTheTable := by
  unfold Obligations.PcMovesByTheTable
  intro ext s t i hi hx
  have hp := hi.2.1
  have he := exec_cases hx
  constructor
  · intro hstop
    obtain ⟨hrun, -⟩ | ⟨k, n, rfl, -⟩ := he.keeps_status_or_halts hi
    · rw [hrun, hi.1] at hstop
      cases hstop
    · rfl
  · intro hrun
    cases he with
    | badIndex | pushLimit | popLimit | callLimit | retLimit | hlt => exact absurd hrun Bool.false_ne_true
    | prn | push | pop => exact advance_toNat s hp (n := 2) (by decide)
    | ldi | add | mul | cmp => exact advance_toNat s hp (n := 3) (by decide)
    | ret => exact redirect_toNat s _
    | call r => exact ⟨r, rfl, redirect_toNat s _⟩
    | jmp r => exact ⟨r, rfl, redirect_toNat s _⟩
    | jeq r =>
      refine ⟨r, rfl, ?_⟩
      rw [← flE_eq]
      split
      · exact redirect_toNat s _
      · exact advance_toNat s hp (by decide)
    | jne r =>
      refine ⟨r, rfl, ?_⟩
      rw [← flE_eq]
      split
      · exact advance_toNat s hp (by decide)
      · exact redirect_toNat s _

/-! ### The invariant -/

/-- Only PUSH and CALL store, both at a byte address. -/
theorem Effect.mem_wf {s t : State} {i : Instr} (h : Effect s i t) (hs : s.mem.wf) : t.mem.wf := by
  cases h with
  | push | call => exact wf_write hs (s.getReg .r7 - 1).isLt _
  | jeq | jne => split <;> exact hs
  | _ => exact hs

/-- After a fetch that passed, `pc` stays at most 256 (rule R23). -/
theorem Effect.pc_le {s t : State} {i : Instr} (h : Effect s i t) (hp : s.pc.toNat ≤ 253) : t.pc.toNat ≤ 256 := by
  have hadv (n : Nat) (hn : n ≤ 3) : (s.advance n).pc.toNat ≤ 256 := by
    rw [advance_toNat s hp hn]
    omega
  have hred (v : Byte) : (s.redirect v).pc.toNat ≤ 256 := by
    rw [redirect_toNat]
    exact v.isLt.le
  cases h with
  | badIndex | pushLimit | popLimit | callLimit | retLimit | hlt => exact hp.trans (by decide)
  | prn | push | pop => exact hadv 2 (by decide)
  | ldi | add | mul | cmp => exact hadv 3 (by decide)
  | call | ret | jmp => exact hred _
  | jeq => split; exacts [hred _, hadv 2 (by decide)]
  | jne => split; exacts [hadv 2 (by decide), hred _]

/-- Every cycle leaves `FL` one of its four bytes (rule R23). -/
theorem cycle_keeps_fl {ext : Bool} {s t : State} (hs : s.Inv) (h : cycle (Config.build ext) s = .next t) :
    t.fl = 0x00 ∨ t.fl = 0x01 ∨ t.fl = 0x02 ∨ t.fl = 0x04 := by
  obtain ⟨hfl, -⟩ | ⟨-, -, -, hfl⟩ := flagsChangeOnlyAtCmp ext s t h
  · rw [hfl]
    exact hs.fl
  · tauto

/-- A halt with its record keeps the invariant: it changes nothing but the status. -/
theorem State.Inv.of_halt {s t : State} (hs : s.Inv) (h : HaltsAsRecorded s t) : t.Inv := by
  obtain ⟨k, n, rfl, hm⟩ := h
  refine ⟨hs.mem, hs.pc, hs.fl, by simp, fun r hr => ?_⟩
  obtain rfl := Option.some.inj hr
  exact hm

/-- An outcome that leaves the machine Running keeps the invariant if Memory, `pc` and `FL` are in range. -/
theorem State.Inv.of_statusKept {s t : State} (hs : s.Inv) (hr : s.running = true) (hst : StatusKept s t)
    (hm : t.mem.wf) (hp : t.pc.toNat ≤ 256) (hf : t.fl = 0x00 ∨ t.fl = 0x01 ∨ t.fl = 0x02 ∨ t.fl = 0x04) : t.Inv := by
  obtain ⟨hrun, hhalt⟩ := hst
  have hnone : t.halt = none := hhalt.trans (hs.status.2 hr)
  refine ⟨hm, hp, hf, ⟨fun _ => hrun.trans hr, fun _ => hnone⟩, fun r h => ?_⟩
  rw [hnone] at h
  cases h

theorem cycle_keeps_inv {ext : Bool} {s t : State} (hs : s.Inv) (h : cycle (Config.build ext) s = .next t) : t.Inv := by
  obtain ⟨hr, ⟨hp, e, hf, rfl⟩ | ⟨hp, -, rfl⟩ | ⟨hp, i, hd, hx⟩⟩ := cycle_cases h
  · rw [fetch_end hp hs.pc] at hf
    injection hf with hf
    exact hs.of_halt (hf ▸ raise_outOfBounds_recorded s (.inr rfl))
  · exact hs.of_halt (raise_unknownOpcode_recorded hp)
  · have he := exec_cases hx
    obtain hk | hh := he.keeps_status_or_halts ⟨hr, hp, hd⟩
    · exact hs.of_statusKept hr hk (he.mem_wf hs.mem) (he.pc_le hp) (cycle_keeps_fl hs h)
    · exact hs.of_halt hh

/-- Settles O47: by the three ways a cycle can go, then by the instruction's outcome; `step` is the cycle with the extension. -/
theorem stepKeepsInvariant : Obligations.StepKeepsInvariant := by
  unfold Obligations.StepKeepsInvariant
  exact ⟨fun _ _ _ => cycle_keeps_inv, fun _ _ => cycle_keeps_inv (ext := true)⟩

/-- Settles O48: by induction on the run, from the launch state. -/
theorem reachableStatesMeetInvariant : Obligations.ReachableStatesMeetInvariant := by
  unfold Obligations.ReachableStatesMeetInvariant
  intro ext s h
  induction h with
  | launch p s hl =>
    obtain ⟨m, hm, rfl⟩ := launchIn_eq_reset hl
    exact resetIn_with_mem_inv ext hm
  | next s t _ hc ih => exact cycle_keeps_inv ih hc

/-- Settles O49: by induction on the run; `FL` changes only at a CMP, and this build runs none. -/
theorem flagsStayZeroWithoutExtension : Obligations.FlagsStayZeroWithoutExtension := by
  unfold Obligations.FlagsStayZeroWithoutExtension
  intro s h
  induction h with
  | launch p s hl =>
    obtain ⟨m, -, rfl⟩ := launchIn_eq_reset hl
    rfl
  | next s t _ hc ih =>
    obtain ⟨hfl, -⟩ | ⟨ra, rb, hr, -⟩ := flagsChangeOnlyAtCmp false s t hc
    · exact hfl.trans ih
    · exact absurd hr (not_runs_cmp_core s _ _)

end Sys2Proof.Machine
end

section
/-! PROOF. The Memory contract: read and write over every integer address, the canonical list as the 256 cells, and the two
instructions that store (rules R30 to R34, R43). -/

namespace Sys2Proof.Machine

/-! ### Read and write -/

/-- `MemWrite` within Memory sets the cell (rule R32). -/
theorem memWrite_in (s : State) {n : Nat} (h : n < 256) (v : Byte) :
    s.memWrite n v = .ok { s with mem := s.mem.write n v } :=
  if_pos ⟨Int.natCast_nonneg n, Int.ofNat_lt.2 h⟩

/-- Every `MemWrite` outside 0 to 255 is OutOfBounds with that address (rule R32). -/
theorem memWrite_out (s : State) {addr : Int} (h : ¬(0 ≤ addr ∧ addr < 256)) (v : Byte) :
    s.memWrite addr v = .error (.outOfBounds addr) :=
  if_neg h

theorem read_write_same {m : Memory} (hm : m.wf) (a : Nat) (v : Byte) : (m.write a v).read a = v := by
  rw [read_write hm, if_pos rfl]

theorem read_write_other {m : Memory} (hm : m.wf) {a a' : Nat} (v : Byte) (h : a' ≠ a) :
    (m.write a v).read a' = m.read a' := by
  rw [read_write hm, if_neg h]

/-- Settles O34: in range the address is a cell's number, out of range the bounds check decides. -/
theorem memoryKeepsItsContract : Obligations.MemoryKeepsItsContract := by
  unfold Obligations.MemoryKeepsItsContract
  intro s addr v hs
  constructor
  · intro h0 h255
    obtain ⟨n, rfl⟩ := Int.eq_ofNat_of_zero_le h0
    have hn : n < 256 := by omega
    exact ⟨memRead_in s hn, _, memWrite_in s hn v, read_write_same hs n v,
      fun a ha => read_write_other hs v (List.ne_of_not_mem_cons ha), rfl, wf_write hs hn v⟩
  · intro h
    have hout : ¬(0 ≤ addr ∧ addr < 256) := by omega
    exact ⟨memRead_out s hout, memWrite_out s hout v⟩

/-! ### The canonical list -/

/-- A canonical memory lists no cell beyond the 256. -/
theorem read_beyond {m : Memory} (hm : m.wf) {a : Nat} (ha : 256 ≤ a) : m.read a = 0 := by
  induction m with
  | nil => rfl
  | cons c m ih =>
    obtain ⟨-, hb, -, hm'⟩ := wf_cons.1 hm
    rw [read_cons, if_neg (by omega), ih hm']

/-- Settles O35: beyond the 256 cells both read as unlisted, so the lists read alike everywhere. -/
theorem canonicalMemoryIsWhatItReads : Obligations.CanonicalMemoryIsWhatItReads := by
  unfold Obligations.CanonicalMemoryIsWhatItReads
  intro m m' hm hm' h
  refine wf_ext hm hm' fun a => ?_
  by_cases ha : a < 256
  · exact h a ha
  · rw [read_beyond hm (by omega), read_beyond hm' (by omega)]

/-! ### What a cycle stores -/

/-- Memory after an instruction: unchanged, or one write at the decremented stack pointer by PUSH or CALL of a register that
exists (rule R34). -/
theorem Effect.mem_cases {s t : State} {i : Instr} (h : Effect s i t) :
    t.mem = s.mem ∨
      (∃ r : Reg, i = .push r.index ∨ i = .call r.index) ∧
        ∃ p v, pushAddress s = .ok p ∧ t.mem = s.mem.write p.toNat v := by
  cases h with
  | push r h7 => exact .inr ⟨⟨r, .inl rfl⟩, _, _, pushAddress_pos h7, rfl⟩
  | call r h7 => exact .inr ⟨⟨r, .inr rfl⟩, _, _, pushAddress_pos h7, rfl⟩
  | jeq | jne => left; split <;> rfl
  | _ => exact .inl rfl

/-- Settles O45: a condition leaves Memory, and so does every outcome but the one write of PUSH and CALL. -/
theorem onlyPushAndCallStore : Obligations.OnlyPushAndCallStore := by
  unfold Obligations.OnlyPushAndCallStore
  intro ext s t hs h a ha
  obtain ⟨i, hi, he⟩ | ⟨e, rfl⟩ := cycle_effect h
  · obtain hm | ⟨⟨r, hir⟩, p, v, hp, hm⟩ := he.mem_cases
    · exact absurd (by rw [hm]) ha
    · refine ⟨⟨r, hir.imp (by rintro rfl; exact hi) (by rintro rfl; exact hi)⟩, p, hp, ?_⟩
      by_contra hap
      exact ha (by rw [hm, read_write_other hs v hap])
  · exact absurd rfl ha

/-! ### A store and the next fetch -/

/-- After a push R7 points at the byte pushed (rule R111). -/
theorem read_pushed {s : State} (hs : s.mem.wf) (v : Byte) :
    (pushed s v).mem.read ((pushed s v).getReg .r7).toNat = v := by
  rw [pushed_getReg, getReg_setReg_same, pushed_mem, read_write_same hs]

/-- A fetch at the cell that a push has just written reads the byte pushed (rule R43). -/
theorem fetch_pushed {s t : State} {v : Byte} (hs : s.mem.wf) (hm : t.mem = (pushed s v).mem)
    (hpc : t.pc.toNat = (s.getReg .r7 - 1).toNat) (hp : t.pc.toNat ≤ 253) : ∃ f, fetch t = .ok f ∧ f.ir = v :=
  ⟨_, fetch_ok hp, by rw [hpc, hm, pushed_mem, read_write_same hs]⟩

/-- A PUSH whose pointer comes to the next instruction's opcode byte is followed by a fetch of the byte pushed. -/
theorem fetch_pushed_advance {s : State} (hs : s.mem.wf) (hp : s.pc.toNat ≤ 251) (h7 : s.getReg .r7 ≠ 0)
    (hsp : (s.getReg .r7).toNat = s.pc.toNat + 3) (v : Byte) :
    ∃ f, fetch ((pushed s v).advance 2) = .ok f ∧ f.ir = v := by
  have hdec := sub_one_toNat h7
  have hpc : ((pushed s v).advance 2).pc.toNat = s.pc.toNat + 2 :=
    advance_toNat (pushed s v) (hp.trans (by decide)) (by decide)
  exact fetch_pushed hs rfl (by omega) (by omega)

/-- A CALL that jumps to the decremented pointer is followed by a fetch of the byte pushed. -/
theorem fetch_pushed_redirect {s : State} (hs : s.mem.wf) (h7 : s.getReg .r7 ≠ 0)
    (htop : (s.getReg .r7).toNat ≤ 254) (v : Byte) :
    ∃ f, fetch ((pushed s v).redirect (s.getReg .r7 - 1)) = .ok f ∧ f.ir = v := by
  have hdec := sub_one_toNat h7
  have hpc := redirect_toNat (pushed s v) (s.getReg .r7 - 1)
  exact fetch_pushed hs rfl hpc (by omega)

/-- Settles O54: PUSH advances onto, and CALL R7 jumps to, the cell that the push wrote. -/
theorem storeIsSeenByTheNextFetch : Obligations.StoreIsSeenByTheNextFetch := by
  unfold Obligations.StoreIsSeenByTheNextFetch
  constructor
  · intro ext s r hs hrun hp hsp
    have h7 : s.getReg .r7 ≠ 0 := fun h => by simp [h] at hsp
    obtain ⟨f, hf, hir⟩ := fetch_pushed_advance hs hp h7 hsp ((s.setReg .r7 (s.getReg .r7 - 1)).getReg r)
    exact ⟨_, f, hrun.cycle_eq.trans (execPush_index r h7), hf, hir.trans (read_pushed hs _).symm,
      fun hr => hir.trans (getReg_setReg_other s _ hr)⟩
  · intro ext s hs hrun h7 htop
    obtain ⟨f, hf, hir⟩ := fetch_pushed_redirect hs h7 htop (returnAddress s)
    exact ⟨_, f, hrun.cycle_eq.trans (execCall_index .r7 h7), hf,
      (congrArg BitVec.toNat hir).trans (returnAddress_toNat hrun.2.1)⟩

end Sys2Proof.Machine
end

section
/-! PROOF. The encodings: the dispatch table is the opcode map, decoding and encoding are inverse to each other, and joined
encodings have one parse; what the ignored bytes and the extension change (rules R50, R51, R54 to R60). -/

namespace Sys2Proof.Machine

/-! ### The dispatch table -/

/-- The handlers in the dispatch table of a build (rules R55, R56). -/
theorem present_build_iff (ext : Bool) (m : Mnemonic) :
    m.present (Config.build ext) = true ↔ ext = true ∨ m.isExt = false := by
  simp [Mnemonic.present]

/-- With the extension every opcode byte selects its own handler. -/
theorem dispatch_opcodeByte (m : Mnemonic) : dispatch (Config.build true) (opcodeByte m) = some m := by
  cases m <;> rfl

theorem opcodeByte_injective : Function.Injective opcodeByte := fun m m' h =>
  Option.some.inj ((dispatch_opcodeByte m).symm.trans (h ▸ dispatch_opcodeByte m'))

theorem mem_all (m : Mnemonic) : m ∈ Mnemonic.all := by cases m <;> decide

/-- A byte that selects a handler is its opcode byte, and the build has the handler. -/
theorem opcodeByte_of_dispatch {ext : Bool} {m : Mnemonic} {b : Byte} (h : dispatch (Config.build ext) b = some m) :
    opcodeByte m = b ∧ m.present (Config.build ext) = true := by
  simpa [and_comm] using List.find?_some h

/-- The dispatch table as the opcode map of a build (rule R54). -/
theorem dispatch_eq_some_iff {ext : Bool} {m : Mnemonic} {b : Byte} :
    dispatch (Config.build ext) b = some m ↔ opcodeByte m = b ∧ m.present (Config.build ext) = true := by
  refine ⟨opcodeByte_of_dispatch, ?_⟩
  rintro ⟨rfl, hm⟩
  have hfound : (dispatch (Config.build ext) (opcodeByte m)).isSome :=
    List.find?_isSome.2 ⟨m, mem_all m, by simp [hm]⟩
  obtain ⟨m', hm'⟩ := Option.isSome_iff_exists.1 hfound
  rw [hm', opcodeByte_injective (opcodeByte_of_dispatch hm').1]

/-- Settles O10: both directions are `dispatch_eq_some_iff`; a handler has one opcode byte in both builds. -/
theorem dispatchIsTheOpcodeMap : Obligations.DispatchIsTheOpcodeMap := by
  unfold Obligations.DispatchIsTheOpcodeMap
  constructor
  · intro ext m b
    rw [dispatch_eq_some_iff, present_build_iff, eq_comm]
  · intro ext ext' m b b' h h'
    exact (opcodeByte_of_dispatch h).1.symm.trans (opcodeByte_of_dispatch h').1

/-! ### Counting the unknown opcodes -/

/-- The byte values that select a handler are the opcode bytes of the handlers in the build. -/
theorem known_opcodes_perm (ext : Bool) :
    ((List.range 256).filter fun n => (dispatch (Config.build ext) (BitVec.ofNat 8 n)).isSome).Perm
      ((Mnemonic.all.filter (Mnemonic.present (Config.build ext))).map fun m => (opcodeByte m).toNat) := by
  have hinj : Function.Injective fun m => (opcodeByte m).toNat := fun m m' h =>
    opcodeByte_injective (BitVec.eq_of_toNat_eq h)
  have hall : Mnemonic.all.Nodup := by decide
  refine (List.perm_ext_iff_of_nodup (List.nodup_range.filter _) ((hall.filter _).map hinj)).2 fun n => ?_
  simp only [List.mem_filter, List.mem_range, List.mem_map, Option.isSome_iff_exists, dispatch_eq_some_iff]
  constructor
  · rintro ⟨hn, m, hm, hp⟩
    exact ⟨m, ⟨mem_all m, hp⟩, by rw [hm, BitVec.toNat_ofNat, Nat.mod_eq_of_lt hn]⟩
  · rintro ⟨m, ⟨-, hp⟩, rfl⟩
    exact ⟨(opcodeByte m).isLt, m, by simp, hp⟩

/-- Every one of the 256 byte values is unknown or the opcode byte of one handler (rule R58). -/
theorem unknown_opcodes_length (ext : Bool) :
    ((List.range 256).filter fun n => (dispatch (Config.build ext) (BitVec.ofNat 8 n)).isNone).length +
      (Mnemonic.all.filter (Mnemonic.present (Config.build ext))).length = 256 := by
  have hsplit := List.length_eq_length_filter_add (l := List.range 256)
    fun n => (dispatch (Config.build ext) (BitVec.ofNat 8 n)).isNone
  have hknown := (known_opcodes_perm ext).length_eq
  simp only [List.length_range, Option.not_isNone, List.length_map] at hsplit hknown
  omega

/-- Settles O11: 13 handlers are in the table with the extension and 9 without it; none has the byte 0x00. -/
theorem unknownOpcodesAreCounted : Obligations.UnknownOpcodesAreCounted := by
  unfold Obligations.UnknownOpcodesAreCounted
  have hwith : (Mnemonic.all.filter (Mnemonic.present (Config.build true))).length = 13 := rfl
  have hwithout : (Mnemonic.all.filter (Mnemonic.present (Config.build false))).length = 9 := rfl
  have htrue := unknown_opcodes_length true
  have hfalse := unknown_opcodes_length false
  exact ⟨by omega, by omega, fun ext => by cases ext <;> rfl⟩

/-! ### Decoding and encoding -/

/-- Decoding is dispatch on the opcode byte and the operand bytes handed on (rules R57, R73). -/
theorem decode_eq_ok_iff {c : Config} {ir a b : Byte} {i : Instr} :
    decode c ir a b = .ok i ↔ dispatch c ir = some i.mnemonic ∧ i.mnemonic.withOperands a b = i := by
  constructor
  · intro h
    have hd := dispatch_of_decode h
    exact ⟨hd, by simpa [decode, hd] using h⟩
  · rintro ⟨hd, hw⟩
    simp [decode, hd, hw]

/-- A handler takes from the two fetched operand bytes as many as its format has (rules R50, R51). -/
theorem withOperands_eq_iff (i : Instr) (a b : Byte) :
    i.mnemonic.withOperands a b = i ↔ i.operandBytes <+: [a, b] := by
  cases i <;> simp [Instr.mnemonic, Mnemonic.withOperands, Instr.operandBytes, eq_comm]

/-- Three bytes decode to `i` exactly when the build has `i` and they begin with its encoding. -/
theorem decode_eq_ok_iff_encode_prefix {ext : Bool} {ir a b : Byte} {i : Instr} :
    decode (Config.build ext) ir a b = .ok i ↔
      encode (Config.build ext) i <+: [ir, a, b] ∧ i.mnemonic.present (Config.build ext) = true := by
  rw [decode_eq_ok_iff, dispatch_eq_some_iff, withOperands_eq_iff, encode, List.cons_prefix_cons, Config.build_opcode]
  exact and_right_comm

/-- An encoding fits into the three fetched bytes (rules R50, R51). -/
theorem encode_length_le (c : Config) (i : Instr) : (encode c i).length ≤ 3 := by
  cases i <;> simp [encode, Instr.operandBytes]

/-- Settles O13: the encoding, of at most three bytes, and the three fetched bytes begin the same bytes. -/
theorem encodedInstructionDecodesBack : Obligations.EncodedInstructionDecodesBack := by
  unfold Obligations.EncodedInstructionDecodesBack
  intro ext i rest tail ir a b hi h
  have hbytes : encode (Config.build ext) i <+: ir :: a :: b :: tail := ⟨rest, h⟩
  have hfetched : [ir, a, b] <+: ir :: a :: b :: tail := List.prefix_append [ir, a, b] tail
  exact decode_eq_ok_iff_encode_prefix.2
    ⟨List.prefix_of_prefix_length_le hbytes hfetched (encode_length_le _ i), hi⟩

/-- Settles O14: the converse of O13, the other direction of `decode_eq_ok_iff_encode_prefix`. -/
theorem decodedBytesBeginWithTheEncoding : Obligations.DecodedBytesBeginWithTheEncoding := by
  unfold Obligations.DecodedBytesBeginWithTheEncoding
  exact fun ext i ir a b => decode_eq_ok_iff_encode_prefix.1

/-- The opcode byte of a handler that the build has, with any operand bytes, decodes to that handler's instruction. -/
theorem decode_opcodeByte {ext : Bool} {m : Mnemonic} (h : m.present (Config.build ext) = true) (a b : Byte) :
    decode (Config.build ext) (opcodeByte m) a b = .ok (m.withOperands a b) := by
  simp [decode, dispatch_eq_some_iff.2 ⟨rfl, h⟩]

/-- A base instruction decodes in both builds (rule R55). -/
theorem decode_base (ext : Bool) {m : Mnemonic} (h : m.isExt = false) (a b : Byte) :
    decode (Config.build ext) (opcodeByte m) a b = .ok (m.withOperands a b) :=
  decode_opcodeByte ((present_build_iff ext m).2 (.inr h)) a b

/-- With the extension every instruction decodes (rule R56). -/
theorem decode_ext (m : Mnemonic) (a b : Byte) :
    decode (Config.build true) (opcodeByte m) a b = .ok (m.withOperands a b) :=
  decode_opcodeByte ((present_build_iff true m).2 (.inl rfl)) a b

/-- Settles O12: each word begins with its handler's opcode byte, the nine of base handlers in either build. -/
theorem wordsOfEveryFamilyDecode : Obligations.WordsOfEveryFamilyDecode := by
  unfold Obligations.WordsOfEveryFamilyDecode
  refine ⟨fun ext => ?_, decode_ext .cmp _ _, decode_ext .jmp _ _, decode_ext .jeq _ _, decode_ext .jne _ _⟩
  exact ⟨decode_base ext (m := .ldi) rfl _ _, decode_base ext (m := .prn) rfl _ _, decode_base ext (m := .hlt) rfl _ _,
    decode_base ext (m := .add) rfl _ _, decode_base ext (m := .mul) rfl _ _, decode_base ext (m := .push) rfl _ _,
    decode_base ext (m := .pop) rfl _ _, decode_base ext (m := .call) rfl _ _, decode_base ext (m := .ret) rfl _ _⟩

/-! ### Ignored bytes -/

/-- Format Z ignores both operand bytes (rule R51). -/
theorem withOperands_of_format_z {m : Mnemonic} (h : m.format = .z) (a b a' b' : Byte) :
    m.withOperands a b = m.withOperands a' b' := by
  cases m with
  | hlt | ret => rfl
  | _ => cases h

/-- Format R ignores the second operand byte (rule R51). -/
theorem withOperands_of_format_r {m : Mnemonic} (h : m.format = .r) (a b b' : Byte) :
    m.withOperands a b = m.withOperands a b' := by
  cases m with
  | push | pop | prn | call | jmp | jeq | jne => rfl
  | _ => cases h

/-- Settles O16: the handler is selected by the opcode byte alone and takes only the bytes of its format. -/
theorem ignoredBytesHaveNoInfluence : Obligations.IgnoredBytesHaveNoInfluence := by
  unfold Obligations.IgnoredBytesHaveNoInfluence
  intro ext m ir a b a' b' hd
  simp only [decode, hd]
  exact ⟨fun hz => by rw [withOperands_of_format_z hz a b a' b'],
    fun hr => by rw [withOperands_of_format_r hr a b b']⟩

/-! ### Joined encodings -/

/-- The parser takes exactly one encoding off the front, whatever follows (rule R60). -/
theorem parseInstr_encode_append {ext : Bool} {i : Instr} (h : i.mnemonic.present (Config.build ext) = true)
    (rest : List Byte) : parseInstr (Config.build ext) (encode (Config.build ext) i ++ rest) = .ok (i, rest) := by
  have hd := dispatch_eq_some_iff.2 ⟨rfl, h⟩
  simp only [encode, Config.build_opcode, List.cons_append, parseInstr, hd]
  cases i <;> rfl

/-- One step of the walk: if `parseInstr` takes `i` off the front, the walk goes on with the rest. -/
theorem parseWithFuel_of_parseInstr {c : Config} {bytes rest : List Byte} {i : Instr} {is : List Instr} {fuel : Nat}
    (hi : parseInstr c bytes = .ok (i, rest)) (hrest : parseWithFuel c fuel rest = .ok is) :
    parseWithFuel c (fuel + 1) bytes = .ok (i :: is) := by
  cases bytes with
  | nil => cases hi
  | cons ir tail => simp [parseWithFuel, hi, hrest]

/-- The walk gives back a list of instructions whenever the fuel is at least their number. -/
theorem parseWithFuel_flatMap_encode {ext : Bool} (is : List Instr)
    (h : ∀ i ∈ is, i.mnemonic.present (Config.build ext) = true) (fuel : Nat) (hfuel : is.length ≤ fuel) :
    parseWithFuel (Config.build ext) fuel (is.flatMap (encode (Config.build ext))) = .ok is := by
  induction is generalizing fuel with
  | nil => simp [parseWithFuel]
  | cons i is ih =>
    obtain ⟨hi, his⟩ := List.forall_mem_cons.1 h
    cases fuel with
    | zero => simp at hfuel
    | succ fuel =>
      rw [List.flatMap_cons]
      exact parseWithFuel_of_parseInstr (parseInstr_encode_append hi _) (ih his fuel (Nat.le_of_succ_le_succ hfuel))

/-- Every encoding has a byte, so a program has at least as many bytes as instructions. -/
theorem length_le_length_flatMap_encode (c : Config) (is : List Instr) : is.length ≤ (is.flatMap (encode c)).length := by
  induction is with
  | nil => exact Nat.le_refl 0
  | cons i is ih =>
    simp only [List.flatMap_cons, List.length_append, List.length_cons, encode]
    omega

/-- Settles O15: by induction on the list; the number of bytes is fuel enough. -/
theorem encodedProgramParsesBack : Obligations.EncodedProgramParsesBack := by
  unfold Obligations.EncodedProgramParsesBack
  intro ext is h
  exact parseWithFuel_flatMap_encode is h _ (length_le_length_flatMap_encode _ is)

/-! ### The extension -/

/-- The opcode bytes of the extension (rule R56). -/
theorem opcodeByte_mem_extension_iff (m : Mnemonic) : opcodeByte m ∈ [0xA7, 0x54, 0x55, 0x56] ↔ m.isExt = true := by
  cases m <;> decide

/-- Off the extension's bytes both builds dispatch alike. -/
theorem dispatch_eq_of_not_mem_extension {b : Byte} (h : b ∉ [0xA7, 0x54, 0x55, 0x56]) :
    dispatch (Config.build true) b = dispatch (Config.build false) b := by
  refine Option.ext fun m => ?_
  simp only [dispatch_eq_some_iff, present_build_iff, true_or, and_true, Bool.false_eq_true, false_or]
  refine (and_iff_left_of_imp fun hm => ?_).symm
  rw [← hm, opcodeByte_mem_extension_iff] at h
  exact Bool.eq_false_of_not_eq_true h

/-- Without the extension its bytes are unknown opcodes. -/
theorem dispatch_eq_none_of_mem_extension {b : Byte} (h : b ∈ [0xA7, 0x54, 0x55, 0x56]) :
    dispatch (Config.build false) b = none := by
  refine Option.eq_none_iff_forall_ne_some.2 fun m hd => ?_
  obtain ⟨rfl, hp⟩ := opcodeByte_of_dispatch hd
  have hext := (opcodeByte_mem_extension_iff m).1 h
  simp [present_build_iff, hext] at hp

/-- A cycle depends on the build only in what it dispatches the byte at `pc` to. -/
theorem cycle_eq_of_dispatch_eq {c c' : Config} {s : State}
    (h : dispatch c (s.mem.read s.pc.toNat) = dispatch c' (s.mem.read s.pc.toNat)) : cycle c s = cycle c' s := by
  by_cases hp : s.pc.toNat ≤ 253
  · simp only [cycle, fetch_ok hp, decode, h]
  · cases hf : fetch s with
    | ok f =>
      have hfits := (fetch_succeeds_iff s).1 ⟨f, hf⟩
      omega
    | error e => simp only [cycle, hf]

/-- Settles O17: the builds dispatch alike off the four bytes; on them the build without the extension has no handler. -/
theorem buildsDifferOnlyInExtensionBytes : Obligations.BuildsDifferOnlyInExtensionBytes := by
  unfold Obligations.BuildsDifferOnlyInExtensionBytes
  refine fun s => ⟨fun hb => cycle_eq_of_dispatch_eq (dispatch_eq_of_not_mem_extension hb), fun hr hp hb => ?_⟩
  exact ⟨_, cycle_reject hr (fetch_ok hp) (dispatch_eq_none_of_mem_extension hb), raise_stopped s _⟩

end Sys2Proof.Machine
end

section
/-! PROOF. The object file: what the writer writes for a byte, the reader reads back (rule R62). -/

namespace Sys2Proof.Machine

/-! ### The digits of a byte -/

/-- The low `n` bits of a byte as binary digits, most significant first. -/
def binaryDigits (v : Byte) : Nat → List Char
  | 0 => []
  | n + 1 => (if v.getLsbD n then '1' else '0') :: binaryDigits v n

/-- The line of a byte is its eight digits. -/
theorem objectLine_eq (v : Byte) : objectLine v = binaryDigits v 8 := rfl

/-- Only the two digits are written. -/
theorem eq_of_mem_binaryDigits {v : Byte} {n : Nat} {ch : Char} (h : ch ∈ binaryDigits v n) : ch = '0' ∨ ch = '1' := by
  induction n with
  | zero => cases h
  | succ n ih =>
    obtain rfl | h := List.mem_cons.1 h
    · split
      · exact .inr rfl
      · exact .inl rfl
    · exact ih h

/-- The reader takes a digit as one more bit below those read before it. -/
theorem bitsValue_digit_cons (acc : Nat) (b : Bool) (rest : List Char) :
    bitsValue acc ((if b then '1' else '0') :: rest) = bitsValue (2 * acc + b.toNat) rest := by
  cases b <;> rfl

/-- The digits of the low `n` bits, read after `acc`, give those bits below `acc`. -/
theorem bitsValue_binaryDigits (v : Byte) (n acc : Nat) :
    bitsValue acc (binaryDigits v n) = some (acc * 2 ^ n + v.toNat % 2 ^ n) := by
  induction n generalizing acc with
  | zero => simp [binaryDigits, bitsValue, Nat.mod_one]
  | succ n ih =>
    rw [binaryDigits, bitsValue_digit_cons, ih, Nat.mod_pow_succ, ← Nat.toNat_testBit, BitVec.testBit_toNat]
    congr 1
    ring

/-! ### One line -/

/-- A line of digits holds no comment, no white space and no line end. -/
theorem objectLine_plain {v : Byte} {ch : Char} (h : ch ∈ objectLine v) :
    ch ≠ '#' ∧ isBlank ch = false ∧ ch ≠ '\n' := by
  obtain rfl | rfl := eq_of_mem_binaryDigits (objectLine_eq v ▸ h) <;> decide

/-- The payload of a line without comment and white space is the line. -/
theorem linePayload_of_plain {line : List Char} (h : ∀ ch ∈ line, ch ≠ '#' ∧ isBlank ch = false) :
    linePayload line = line := by
  have hcomment : line.takeWhile (· ≠ '#') = line := List.takeWhile_eq_self_iff.2 fun ch hc => by simp [(h ch hc).1]
  have hblank : ∀ l : List Char, (∀ ch ∈ l, isBlank ch = false) → l.dropWhile isBlank = l := fun l hl =>
    List.dropWhile_eq_self_iff.2 fun hpos => by simp [hl _ (List.getElem_mem hpos)]
  rw [linePayload, hcomment, hblank line fun ch hc => (h ch hc).2,
    hblank line.reverse fun ch hc => (h ch (List.mem_reverse.1 hc)).2, List.reverse_reverse]

theorem payloadByte_objectLine (v : Byte) : payloadByte (objectLine v) = some v := by
  have hlen : (objectLine v).length = Config.core.xlen := rfl
  rw [payloadByte, if_pos hlen, objectLine_eq, bitsValue_binaryDigits]
  simp [Nat.mod_eq_of_lt v.isLt]

/-- The reader takes a byte from the line that the writer wrote for it. -/
theorem linesBytes_objectLine (v : Byte) (lines : List (List Char)) :
    linesBytes (objectLine v :: lines) = (linesBytes lines).map (v :: ·) := by
  have hpayload : linePayload (objectLine v) = objectLine v :=
    linePayload_of_plain fun ch hc => ⟨(objectLine_plain hc).1, (objectLine_plain hc).2.1⟩
  obtain ⟨ch, rest, hline⟩ : ∃ ch rest, objectLine v = ch :: rest := ⟨_, _, rfl⟩
  have hbyte := payloadByte_objectLine v
  rw [linesBytes, hpayload]
  rw [hline] at hbyte ⊢
  cases linesBytes lines <;> simp [hbyte]

/-! ### The file -/

/-- A line without a line end is cut off at the line end that follows it. -/
theorem textLines_line_append {line : List Char} (h : '\n' ∉ line) (rest : List Char) :
    textLines (line ++ '\n' :: rest) = line :: textLines rest := by
  induction line with
  | nil => rfl
  | cons ch line ih =>
    obtain ⟨hch, hline⟩ := List.ne_and_not_mem_of_not_mem_cons h
    rw [List.cons_append, textLines, ih hline]
    exact fun he => hch he.symm

theorem objectFile_cons (v : Byte) (p : List Byte) : objectFile (v :: p) = objectLine v ++ '\n' :: objectFile p := by
  simp [objectFile]

/-- Settles O56: by induction on the bytes, one line for each; the empty line at the end is skipped. -/
theorem objectFileReadsBack : Obligations.ObjectFileReadsBack := by
  unfold Obligations.ObjectFileReadsBack
  intro p
  induction p with
  | nil => rfl
  | cons v p ih =>
    have hcut := textLines_line_append (fun h => (objectLine_plain (v := v) h).2.2 rfl) (objectFile p)
    have hrest : linesBytes (textLines (objectFile p)) = some p := ih
    rw [objectFile_cons, objectBytes, hcut, linesBytes_objectLine, hrest, Option.map_some]

end Sys2Proof.Machine
end

section
/-! PROOF. The execution loop: the fetch, one cycle, runs and their end, HLT, and the word placed for the next step (rules R70 to
R79, R136). -/

namespace Sys2Proof.Machine

/-! ### The fetch -/

/-- Settles O5: below 254 the three reads succeed, at 254 and 255 the first address above 255 is 256, and beyond it is `pc`. -/
theorem fetchReadsThreeBytesInOrder : Obligations.FetchReadsThreeBytesInOrder := by
  unfold Obligations.FetchReadsThreeBytesInOrder
  intro s
  split_ifs with h0 h1 h2
  · exact fetch_beyond h0
  · have haddr : (s.pc.toNat : Int) + 1 = 256 := by omega
    rw [haddr]
    exact fetch_end (by omega) (by omega)
  · have haddr : (s.pc.toNat : Int) + 2 = 256 := by omega
    rw [haddr]
    exact fetch_end (by omega) (by omega)
  · exact fetch_ok (by omega)

/-- Above 253 the fetch raises OutOfBounds and nothing else (rule R72). -/
theorem fetch_outOfBounds {s : State} (h : 254 ≤ s.pc.toNat) : ∃ n, fetch s = .error (.outOfBounds n) := by
  by_cases h' : s.pc.toNat ≤ 256
  · exact ⟨_, fetch_end h h'⟩
  · exact ⟨_, fetch_beyond (by omega)⟩

/-- At a cell of Memory the cycle's opcode byte is the one there (rule R18). -/
theorem fetchedOpcode_in {s : State} (h : s.pc.toNat < 256) : fetchedOpcode s = some (s.mem.read s.pc.toNat) :=
  if_pos (by omega)

/-- Beyond Memory a cycle has no opcode byte (rule R18). -/
theorem fetchedOpcode_beyond {s : State} (h : 256 ≤ s.pc.toNat) : fetchedOpcode s = none :=
  if_neg (by omega)

/-- The opcode byte in the halt record of a stopped machine (rule R18). -/
theorem StoppedAs.exists_ir {s t : State} {k : Cause} {n : Int} {ir : Option Byte} (h : StoppedAs s t k n)
    (hir : fetchedOpcode s = ir) : ∃ r, t.halt = some r ∧ r.ir = ir := by
  obtain ⟨-, -, -, -, -, -, hhalt⟩ := h
  exact ⟨_, hhalt, hir⟩

/-- Settles O6: the fetch raises OutOfBounds(256) before any decoding; the record's `ir` is the byte at `pc`, if there is one. -/
theorem fetchNearMemoryEndStops : Obligations.FetchNearMemoryEndStops := by
  unfold Obligations.FetchNearMemoryEndStops
  intro ext s hr h h'
  have hstop := raise_stopped s (.outOfBounds 256)
  exact ⟨_, cycle_fetch_error _ hr (fetch_end h h'), hstop, fun hp => hstop.exists_ir (fetchedOpcode_beyond hp.ge),
    fun hp => hstop.exists_ir (fetchedOpcode_in hp)⟩

/-! ### One cycle -/

/-- Settles O4: `Runs` is what the cycle asks for before it calls the handler. -/
theorem stepRunsDecodedInstruction : Obligations.StepRunsDecodedInstruction := by
  unfold Obligations.StepRunsDecodedInstruction
  exact ⟨fun _ _ _ h => h.cycle_eq, fun _ _ h => h.cycle_eq, fun _ => rfl⟩

/-- A byte without a handler stops a cycle that has fetched it (rule R77). -/
theorem cycle_unknownOpcode {c : Config} {s : State} (hr : s.running = true) (hp : s.pc.toNat ≤ 253)
    (hd : dispatch c (s.mem.read s.pc.toNat) = none) :
    ∃ t, cycle c s = .next t ∧ StoppedAs s t .unknownOpcode (s.mem.read s.pc.toNat).toNat :=
  ⟨_, cycle_reject hr (fetch_ok hp) hd, raise_stopped s _⟩

/-- Settles O7: the decoder turns the byte away; from bare reset it is the 0x00 at address 0, unknown in every build. -/
theorem unknownOpcodeHaltsGracefully : Obligations.UnknownOpcodeHaltsGracefully := by
  unfold Obligations.UnknownOpcodeHaltsGracefully
  refine ⟨fun ext s => cycle_unknownOpcode, ?_⟩
  have hunknown : dispatch Config.core 0x00 = none := rfl
  obtain ⟨t, ht, -, -, -, -, -, -, hhalt⟩ :=
    cycle_unknownOpcode (c := Config.core) (s := State.reset) rfl (by decide) hunknown
  exact ⟨t, ht, hhalt⟩

/-- Settles O8: every handler is total, and a Halted state runs none. -/
theorem onlyRunningStatesHaveSuccessors : Obligations.OnlyRunningStatesHaveSuccessors := by
  unfold Obligations.OnlyRunningStatesHaveSuccessors
  exact fun ext s => ⟨cycle_running _, cycle_halted _⟩

/-! ### Runs -/

/-- A run goes on from the first cycle's state, if there is one. -/
theorem run_succ_eq_next_iff {c : Config} {k : Nat} {s t : State} :
    run c (k + 1) s = .next t ↔ ∃ u, cycle c s = .next u ∧ run c k u = .next t := by
  rw [run]
  cases cycle c s <;> simp

/-- The first cycle of a run that has one. -/
theorem run_succ_of_cycle {c : Config} {s u : State} (h : cycle c s = .next u) (k : Nat) :
    run c (k + 1) s = run c k u := by
  rw [run, h]

/-- No run has a cycle from a Halted state (rule R78). -/
theorem run_succ_halted (c : Config) {s : State} (h : s.running = false) (k : Nat) :
    run c (k + 1) s = .fault .halted := by
  rw [run, cycle_halted c h]

/-- A run of `k + n` cycles is one of `n` cycles from where `k` cycles lead. -/
theorem run_add_of_next {c : Config} {k : Nat} {s u : State} (h : run c k s = .next u) (n : Nat) :
    run c (k + n) s = run c n u := by
  induction k generalizing s with
  | zero =>
    injection h with h
    rw [Nat.zero_add, h]
  | succ k ih =>
    obtain ⟨v, hv, hrun⟩ := run_succ_eq_next_iff.1 h
    rw [Nat.succ_add, run_succ_of_cycle hv, ih hrun]

/-- A run that leads somewhere leads, after any part of its cycles, to a state from which the others go on. -/
theorem exists_run_of_run_add {c : Config} {k n : Nat} {s t : State} (h : run c (k + n) s = .next t) :
    ∃ u, run c k s = .next u ∧ run c n u = .next t := by
  induction k generalizing s with
  | zero => exact ⟨s, rfl, by rwa [Nat.zero_add] at h⟩
  | succ k ih =>
    rw [Nat.succ_add] at h
    obtain ⟨v, hv, hrun⟩ := run_succ_eq_next_iff.1 h
    obtain ⟨u, hu, hrest⟩ := ih hrun
    exact ⟨u, (run_succ_of_cycle hv k).trans hu, hrest⟩

/-- Settles O9: cut at `k` cycles, a longer run has a cycle from the Halted `t`; cut before `k`, a cycle still follows. -/
theorem runEndsAtFirstHalt : Obligations.RunEndsAtFirstHalt := by
  unfold Obligations.RunEndsAtFirstHalt
  intro ext k s t h
  constructor
  · intro hstop n
    exact (run_add_of_next h (n + 1)).trans (run_succ_halted _ hstop n)
  · intro j hj
    obtain ⟨n, rfl⟩ := Nat.exists_eq_add_of_lt hj
    obtain ⟨u, hu, hrest⟩ := exists_run_of_run_add (n := n + 1) h
    obtain ⟨v, hv, -⟩ := run_succ_eq_next_iff.1 hrest
    exact ⟨u, hu, (cycle_cases hv).1⟩

/-! ### HLT -/

/-- The byte 0x01 is HLT in both builds, whatever follows it (rules R51, R55). -/
theorem decode_hlt (ext : Bool) (a b : Byte) : decode (Config.build ext) 0x01 a b = .ok .hlt :=
  decode_base ext (m := .hlt) rfl a b

/-- A cycle that fetches 0x01 is the HLT handler (rule R76). -/
theorem cycle_hlt (ext : Bool) {s : State} (hr : s.running = true) (hp : s.pc.toNat ≤ 253)
    (hir : s.mem.read s.pc.toNat = 0x01) : cycle (Config.build ext) s = .next (s.haltWith .hlt 0) :=
  Runs.cycle_eq (i := .hlt) ⟨hr, hp, by rw [hir, decode_hlt]⟩

/-- Settles O30: HLT is one halt of the state at the start of the cycle; above 253 the fetch comes before any handler. -/
theorem hltStopsTheMachine : Obligations.HltStopsTheMachine := by
  unfold Obligations.HltStopsTheMachine
  refine ⟨decode_hlt, fun s => ⟨_, execHlt_eq s, haltWith_stopped s .hlt 0⟩, fun ext s hr hp hir => ?_,
    fun ext s hr hp => ?_⟩
  · exact ⟨_, cycle_hlt ext hr hp hir, haltWith_stopped s .hlt 0, by rw [haltWith_halt, opcodeAtPc_fetched hp, hir],
      cycle_halted _ (haltWith_running s .hlt 0)⟩
  · obtain ⟨n, hf⟩ := fetch_outOfBounds hp
    exact ⟨_, cycle_fetch_error _ hr hf, (raise_haltedBy s _ _).2 rfl⟩

/-- A raised condition is never a normal end (rule R136). -/
theorem not_endsNormally_raise (s : State) (e : Condition) : ¬EndsNormally (s.raise e) := by
  rintro ⟨-, h⟩
  have hcause := (raise_haltedBy s e .hlt).1 h
  cases e <;> cases hcause

/-- A halt with cause HLT records the opcode byte 0x01 (rule R131). -/
theorem HaltsAsRecorded.hlt_opcode {s t : State} (hp : s.pc.toNat ≤ 253) (h : HaltsAsRecorded s t)
    (hc : HaltedBy t .hlt) : s.mem.read s.pc.toNat = 0x01 := by
  obtain ⟨k, n, rfl, -, -, hm⟩ := h
  obtain ⟨r, hr, hk⟩ := hc
  obtain rfl := Option.some.inj hr
  obtain rfl : k = .hlt := hk
  obtain ⟨-, hir⟩ := hm
  exact Option.some.inj ((opcodeAtPc_fetched hp).symm.trans hir)

/-- Of the handlers only HLT's, at the byte 0x01, ends a run normally (rules R76, R136). -/
theorem Runs.opcode_of_endsNormally {ext : Bool} {s t : State} {i : Instr} (hi : Runs (Config.build ext) s i)
    (he : Effect s i t) (hnone : s.halt = none) (hend : EndsNormally t) : s.mem.read s.pc.toNat = 0x01 := by
  obtain ⟨-, hc⟩ := hend
  obtain ⟨-, hhalt⟩ | hrec := he.keeps_status_or_halts hi
  · obtain ⟨r, hr, -⟩ := hc
    rw [hhalt, hnone] at hr
    cases hr
  · exact hrec.hlt_opcode hi.2.1 hc

/-- Settles O41: a condition is no normal end, and of the handlers only HLT's is one. -/
theorem normalEndExactlyAtHlt : Obligations.NormalEndExactlyAtHlt := by
  unfold Obligations.NormalEndExactlyAtHlt
  intro ext s t hnone h
  constructor
  · intro hend
    obtain ⟨i, hi, he⟩ | ⟨e, rfl⟩ := cycle_effect h
    · exact ⟨hi.2.1, hi.opcode_of_endsNormally he hnone hend⟩
    · exact absurd hend (not_endsNormally_raise s e)
  · rintro ⟨hp, hir⟩
    have ht := (cycle_hlt ext (cycle_cases h).1 hp hir).symm.trans h
    injection ht with ht
    exact ht ▸ ⟨rfl, _, rfl, rfl⟩

/-! ### The placed word -/

/-- What a cell reads after three bytes are stored at `n`. -/
theorem read_writeThree {m : Memory} (hm : m.wf) {n : Nat} (hn : n ≤ 253) (b0 b1 b2 : Byte) (a : Nat) :
    (m.writeThree n b0 b1 b2).read a =
      if a = n + 2 then b2 else if a = n + 1 then b1 else if a = n then b0 else m.read a := by
  have hm0 := wf_write hm (a := n) (by omega) b0
  have hm1 := wf_write hm0 (a := n + 1) (by omega) b1
  rw [Memory.writeThree, read_write hm1, read_write hm0, read_write hm]

/-- Three bytes can be fetched at a counter of at most 253 (rule R72). -/
theorem fetch_fits_iff (s : State) : s.pc.toNat + Config.core.fetchBytes ≤ Config.core.memSize ↔ s.pc.toNat ≤ 253 := by
  simp only [Config.core_fetchBytes, Config.core_memSize]
  omega

/-- Where the three bytes are placed, they can be fetched: at `pc`, or else at `PC_RESET`. -/
theorem placeFetch_pc_le (s : State) (b0 b1 b2 : Byte) : (placeFetch s b0 b1 b2).pc.toNat ≤ 253 := by
  by_cases hp : s.pc.toNat ≤ 253
  · have hpc : (placeFetch s b0 b1 b2).pc = s.pc := if_pos ((fetch_fits_iff s).2 hp)
    rwa [hpc]
  · have hpc : (placeFetch s b0 b1 b2).pc = 0 := if_neg fun h => hp ((fetch_fits_iff s).1 h)
    rw [hpc]
    decide

theorem placeFetch_mem (s : State) (b0 b1 b2 : Byte) :
    (placeFetch s b0 b1 b2).mem = s.mem.writeThree (placeFetch s b0 b1 b2).pc.toNat b0 b1 b2 := rfl

/-- In a Running state that can fetch, placing bytes changes Memory alone, at `pc`. -/
theorem placeFetch_fits {s : State} (hr : s.running = true) (hp : s.pc.toNat ≤ 253) (b0 b1 b2 : Byte) :
    placeFetch s b0 b1 b2 = { s with mem := s.mem.writeThree s.pc.toNat b0 b1 b2 } := by
  simp only [placeFetch, if_pos ((fetch_fits_iff s).2 hp), hr, if_true]

/-- Placed bytes that decode to `i` make `i` the instruction of the next cycle. -/
theorem runs_placeFetch {c : Config} {s : State} (hs : s.mem.wf) {b0 b1 b2 : Byte} {i : Instr}
    (h : decode c b0 b1 b2 = .ok i) : Runs c (placeFetch s b0 b1 b2) i := by
  have hp := placeFetch_pc_le s b0 b1 b2
  refine ⟨rfl, hp, ?_⟩
  simpa [placeFetch_mem, read_writeThree hs hp] using h

/-- The instruction of an opcode-table word is what its three bytes decode to. -/
theorem decode_of_decodeTableWord {nbits w : Nat} {i : Instr} (h : decodeTableWord nbits w = some i) :
    decode Config.core (tableByte nbits w 0) (tableByte nbits w 1) (tableByte nbits w 2) = .ok i := by
  unfold decodeTableWord at h
  split at h
  · next j hj => rw [hj, Option.some.inj h]
  · cases h

/-- Settles O55: the next cycle fetches the three placed bytes; the cells outside them keep their bytes. -/
theorem placedWordIsTheNextInstruction : Obligations.PlacedWordIsTheNextInstruction := by
  unfold Obligations.PlacedWordIsTheNextInstruction
  intro s nbits w hs
  refine ⟨fun i hi => (runs_placeFetch hs (decode_of_decodeTableWord hi)).cycle_eq, fun hr hp => ?_⟩
  have hplace := placeFetch_fits hr hp (tableByte nbits w 0) (tableByte nbits w 1) (tableByte nbits w 2)
  rw [State.withFetchWord, hplace]
  refine ⟨rfl, fun a ha => ?_⟩
  simp only [List.mem_cons, List.not_mem_nil, or_false, not_or] at ha
  obtain ⟨h0, h1, h2⟩ := ha
  exact (read_writeThree hs hp _ _ _ a).trans (by rw [if_neg h2, if_neg h1, if_neg h0])

end Sys2Proof.Machine
end

section
/-! PROOF. The data-move and output family: LDI, PRN, and the numerals the host shows for the emitted bytes (rules R90 to R92). -/

namespace Sys2Proof.Machine

/-! ### LDI, PRN -/

/-- Settles O18: on `r.index` LDI is one `setReg` and an advance that does not wrap; above 7 `CheckReg` raises. -/
theorem ldiWritesItsImmediate : Obligations.LdiWritesItsImmediate := by
  unfold Obligations.LdiWritesItsImmediate
  refine ⟨fun ext => decode_base ext (m := .ldi) rfl, fun s r imm hp => ?_, fun s a imm ha => ?_⟩
  · exact ⟨_, execLdi_index r imm s, getReg_setReg_same s r imm, advance_toNat (s.setReg r imm) hp (by decide),
      setReg_kept s r imm, fun _ _ => rfl, rfl, rfl, rfl, rfl⟩
  · exact ⟨_, execLdi_above ha imm s, raise_stopped s (.invalidRegister a)⟩

/-- Settles O19: on `r.index` PRN is one `emit` and an advance that does not wrap; above 7 `CheckReg` raises. -/
theorem prnEmitsTheRegister : Obligations.PrnEmitsTheRegister := by
  unfold Obligations.PrnEmitsTheRegister
  refine ⟨fun ext => decode_base ext (m := .prn) rfl, fun s r hp => ?_, fun s a ha => ?_⟩
  · exact ⟨_, execPrn_index r s, rfl, advance_toNat (s.emit (s.getReg r)) hp (by decide), fun _ _ => rfl,
      fun _ _ => rfl, rfl, rfl, rfl⟩
  · exact ⟨_, execPrn_above ha s, raise_stopped s (.invalidRegister a)⟩

/-! ### The shown numerals -/

theorem renderOut_length (out : List Byte) : (renderOut out).length = out.length := List.length_map _

theorem renderOut_getElem? {out : List Byte} {k : Nat} {v : Byte} (h : out[k]? = some v) :
    (renderOut out)[k]? = some ((decimalDigits v).map Nat.digitChar) := by
  rw [renderOut, List.getElem?_map, h, Option.map_some]

/-- The three forms of a byte's numeral, by its number of digits. -/
theorem decimalDigits_cases (v : Byte) :
    (v.toNat < 10 ∧ decimalDigits v = [v.toNat]) ∨
    (10 ≤ v.toNat ∧ v.toNat < 100 ∧ decimalDigits v = [v.toNat / 10, v.toNat % 10]) ∨
    (100 ≤ v.toNat ∧ decimalDigits v = [v.toNat / 100, v.toNat / 10 % 10, v.toNat % 10]) := by
  by_cases h10 : v.toNat < 10
  · exact .inl ⟨h10, if_pos h10⟩
  · by_cases h100 : v.toNat < 100
    · exact .inr (.inl ⟨by omega, h100, (if_neg h10).trans (if_pos h100)⟩)
    · exact .inr (.inr ⟨by omega, (if_neg h10).trans (if_neg h100)⟩)

theorem decimalDigits_value (v : Byte) : (decimalDigits v).foldl (fun n d => 10 * n + d) 0 = v.toNat := by
  obtain ⟨-, h⟩ | ⟨-, -, h⟩ | ⟨-, h⟩ := decimalDigits_cases v <;> simp only [h, List.foldl] <;> omega

theorem decimalDigits_lt_ten (v : Byte) : ∀ d ∈ decimalDigits v, d < 10 := by
  have hv := v.isLt
  obtain ⟨hn, h⟩ | ⟨-, hn, h⟩ | ⟨-, h⟩ := decimalDigits_cases v <;> simp [h] <;> omega

theorem decimalDigits_ne_nil (v : Byte) : decimalDigits v ≠ [] := by
  obtain ⟨-, h⟩ | ⟨-, -, h⟩ | ⟨-, h⟩ := decimalDigits_cases v <;> simp [h]

/-- A numeral that begins with 0 is the single 0 (rule R92). -/
theorem decimalDigits_eq_zero_of_head (v : Byte) (h0 : (decimalDigits v).head? = some 0) : decimalDigits v = [0] := by
  obtain ⟨-, h⟩ | ⟨hn, -, h⟩ | ⟨hn, h⟩ := decimalDigits_cases v <;> rw [h] at h0 ⊢ <;> injection h0 with h0
  · rw [h0]
  · omega
  · omega

/-- Settles O57: one numeral a byte, and a byte's numeral by its number of digits. -/
theorem outputIsShownInDecimal : Obligations.OutputIsShownInDecimal := by
  unfold Obligations.OutputIsShownInDecimal
  exact ⟨fun out => ⟨renderOut_length out, fun _ _ => renderOut_getElem?⟩, fun v =>
    ⟨decimalDigits_value v, decimalDigits_lt_ten v, decimalDigits_ne_nil v, decimalDigits_eq_zero_of_head v⟩⟩

end Sys2Proof.Machine
end

section
/-! PROOF. The arithmetic family: the ALU over all bytes, and ADD, MUL and CMP (rules R101 to R108, R134). -/

namespace Sys2Proof.Machine

/-! ### The outcome of a comparison -/

theorem compareFlags_eq_l_iff (a b : Byte) : compareFlags a b = 0x04 ↔ a.toNat < b.toNat := by
  rw [compareFlags_eq]
  split
  · next h => exact iff_of_true rfl h
  · next h => exact iff_of_false (by split <;> decide) h

theorem compareFlags_eq_g_iff (a b : Byte) : compareFlags a b = 0x02 ↔ b.toNat < a.toNat := by
  rw [compareFlags_eq]
  split
  · next h => exact iff_of_false (by decide) h.asymm
  · split
    · next h => exact iff_of_true rfl h
    · next h => exact iff_of_false (by decide) h

theorem compareFlags_self (a : Byte) : compareFlags a a = 0x01 := by
  rw [compareFlags_eq, if_neg (Nat.lt_irrefl _), if_neg (Nat.lt_irrefl _)]

/-- Exactly one of L, G, E is set after a comparison (rule R103). -/
theorem compareFlags_bits (a b : Byte) :
    ((compareFlags a b).getLsbD 2, (compareFlags a b).getLsbD 1, (compareFlags a b).getLsbD 0) ∈
      [(true, false, false), (false, true, false), (false, false, true)] := by
  obtain h | h | h := compareFlags_cases a b <;> rw [h] <;> decide

/-! ### The ALU -/

/-- Settles O31: the outcome is `compareFlags`, whose value each order of the operands decides. -/
theorem compareSetsExactlyOneBit : Obligations.CompareSetsExactlyOneBit := by
  unfold Obligations.CompareSetsExactlyOneBit
  exact fun a b => ⟨_, alu_cmp a b, (compareFlags_eq_l_iff a b).2, (compareFlags_eq_g_iff a b).2,
    fun h => h ▸ compareFlags_self a, compareFlags_bits a b⟩

/-- CMP gives L exactly when it gives G on the swapped operands (Q10). -/
theorem alu_cmp_swap (a b : Byte) : alu .cmp a b = .ok 0x04 ↔ alu .cmp b a = .ok 0x02 := by
  rw [alu_cmp, alu_cmp, Except.ok.injEq, Except.ok.injEq, compareFlags_eq_l_iff, compareFlags_eq_g_iff]

/-- Settles O32: ADD and MUL are the sum and the product of words, and CMP is `compareFlags`. -/
theorem arithmeticLawsHold : Obligations.ArithmeticLawsHold := by
  unfold Obligations.ArithmeticLawsHold
  refine ⟨fun a b => ?_, fun a b => ?_, fun a => ?_, alu_cmp_swap, fun v w h => ?_, fun v => ⟨?_, ?_⟩⟩
  · rw [alu_add, alu_add, BitVec.add_comm]
  · rw [alu_mul, alu_mul, BitVec.mul_comm]
  · rw [alu_cmp, compareFlags_self]
  · rw [alu_add, Except.ok.injEq] at h
    rw [← h]
    exact BitVec.toNat_add v 0xFF
  · rw [alu_mul]
    exact congrArg Except.ok BitVec.mul_zero
  · rw [alu_mul]
    exact congrArg Except.ok (BitVec.mul_one v)

/-! ### UnsupportedOperation -/

/-- No halt that describes its state has the cause UnsupportedOperation (rule R134). -/
theorem HaltsAsRecorded.not_unsupportedOperation {s t : State} (h : HaltsAsRecorded s t) :
    ¬HaltedBy t .unsupportedOperation := by
  obtain ⟨k, n, rfl, -, -, hm⟩ := h
  rintro ⟨r, hr, hk⟩
  obtain rfl := Option.some.inj hr
  obtain rfl : k = .unsupportedOperation := hk
  exact hm

/-- Settles O33: a cycle raises OutOfBounds, UnknownOpcode or what its handler records, and no handler records this cause. -/
theorem unsupportedOperationIsUnreachable : Obligations.UnsupportedOperationIsUnreachable := by
  unfold Obligations.UnsupportedOperationIsUnreachable
  refine ⟨fun _ _ => rfl, fun ext s t hnone h => ?_⟩
  obtain ⟨hr, ⟨hp, e, hf, rfl⟩ | ⟨hp, -, rfl⟩ | ⟨hp, i, hd, hx⟩⟩ := cycle_cases h
  · obtain ⟨n, hn⟩ := fetch_outOfBounds hp
    obtain rfl := Except.error.inj (hf.symm.trans hn)
    rw [raise_haltedBy]
    exact Cause.noConfusion
  · exact (raise_unknownOpcode_recorded hp).not_unsupportedOperation
  · obtain ⟨-, hhalt⟩ | hrec := (exec_cases hx).keeps_status_or_halts ⟨hr, hp, hd⟩
    · rintro ⟨r, hrecorded, -⟩
      rw [hhalt, hnone] at hrecorded
      cases hrecorded
    · exact hrec.not_unsupportedOperation

/-! ### ADD, MUL, CMP -/

/-- The frame of ADD and MUL: one register written and an advance over three bytes, which does not wrap (rules R105, R106). -/
theorem setReg_advance_frame {s : State} (hp : s.pc.toNat ≤ 253) (r : Reg) (v : Byte) :
    ((s.setReg r v).advance 3).pc.toNat = s.pc.toNat + 3 ∧ RegsKept [r] s ((s.setReg r v).advance 3) ∧
      CellsKept [] s ((s.setReg r v).advance 3) ∧ ((s.setReg r v).advance 3).fl = s.fl ∧
      ((s.setReg r v).advance 3).out = s.out ∧ StatusKept s ((s.setReg r v).advance 3) :=
  ⟨advance_toNat (s.setReg r v) hp (by decide), setReg_kept s r v, fun _ _ => rfl, rfl, rfl, rfl, rfl⟩

/-- Settles O20: ADD writes the sum of words to its first register; a bad index is raised before any value is read. -/
theorem addWritesTheSumModulo256 : Obligations.AddWritesTheSumModulo256 := by
  unfold Obligations.AddWritesTheSumModulo256
  refine ⟨fun ext => decode_base ext (m := .add) rfl, fun s ra rb hp => ?_, fun s a b ha => ?_, fun s ra b hb => ?_⟩
  · refine ⟨_, execAdd_index ra rb s, ?_, setReg_advance_frame hp ra _⟩
    rw [advance_getReg, getReg_setReg_same]
    exact BitVec.toNat_add _ _
  · exact ⟨_, execAdd_above_a ha b s, raise_stopped s (.invalidRegister a)⟩
  · exact ⟨_, execAdd_above_b ra hb s, raise_stopped s (.invalidRegister b)⟩

/-- Settles O21: MUL writes the product of words to its first register; a bad index is raised before any value is read. -/
theorem mulWritesTheProductModulo256 : Obligations.MulWritesTheProductModulo256 := by
  unfold Obligations.MulWritesTheProductModulo256
  refine ⟨fun ext => decode_base ext (m := .mul) rfl, fun s ra rb hp => ?_, fun s a b ha => ?_, fun s ra b hb => ?_⟩
  · refine ⟨_, execMul_index ra rb s, ?_, setReg_advance_frame hp ra _⟩
    rw [advance_getReg, getReg_setReg_same]
    exact BitVec.toNat_mul _ _
  · exact ⟨_, execMul_above_a ha b s, raise_stopped s (.invalidRegister a)⟩
  · exact ⟨_, execMul_above_b ra hb s, raise_stopped s (.invalidRegister b)⟩

/-- A byte of the extension is turned away by the build without it (rule R56). -/
theorem decode_error_of_mem_extension {ir : Byte} (h : ir ∈ [0xA7, 0x54, 0x55, 0x56]) (a b : Byte) :
    decode (Config.build false) ir a b = .error (.unknownOpcode ir) := by
  simp only [decode, dispatch_eq_none_of_mem_extension h]

/-- Settles O22: CMP writes `compareFlags` of its registers to `FL`; a bad index is raised before any value is read. -/
theorem cmpWritesExactlyOneFlag : Obligations.CmpWritesExactlyOneFlag := by
  unfold Obligations.CmpWritesExactlyOneFlag
  refine ⟨fun a b => ⟨decode_ext .cmp a b, decode_error_of_mem_extension (by decide) a b⟩, fun s ra rb hp => ?_,
    fun s a b ha => ?_, fun s ra b hb => ?_⟩
  · refine ⟨_, execCmp_index ra rb s, (compareFlags_eq_l_iff _ _).2, (compareFlags_eq_g_iff _ _).2, fun h => ?_,
      advance_toNat (s.setFl _) hp (by decide), fun _ _ => rfl, fun _ _ => rfl, rfl, rfl, rfl⟩
    rw [advance_fl, setFl_fl, h, compareFlags_self]
  · exact ⟨_, execCmp_above_a ha b s, raise_stopped s (.invalidRegister a)⟩
  · exact ⟨_, execCmp_above_b ra hb s, raise_stopped s (.invalidRegister b)⟩

end Sys2Proof.Machine
end

section
/-! PROOF. The stack family: PUSH and POP with their limits and bad index, the registers a cycle can change, and the round trip of
a PUSH and the POP after it (rules R110 to R115, R159). -/

namespace Sys2Proof.Machine

/-! ### PUSH -/

/-- A push stores to one cell, the one the decremented pointer names (rule R111). -/
theorem pushed_cellsKept {s : State} (hs : s.mem.wf) (v : Byte) :
    CellsKept [(s.getReg .r7 - 1).toNat] s (pushed s v) := fun _ ha =>
  read_write_other hs v (List.ne_of_not_mem_cons ha)

/-- Off the lower limit the address a push stores to is the decremented pointer (rule R111). -/
theorem pushAddress_eq_ok {s : State} {p : Byte} (h : pushAddress s = .ok p) (h7 : s.getReg .r7 ≠ 0) :
    p = s.getReg .r7 - 1 := by
  rw [pushAddress_pos h7] at h
  injection h with h
  exact h.symm

/-- Settles O23: off the limit PUSH is one `pushed` and an advance that does not wrap; `CheckReg` comes before the limit. -/
theorem pushDecrementsThenStores : Obligations.PushDecrementsThenStores := by
  unfold Obligations.PushDecrementsThenStores
  refine ⟨fun ext => decode_base ext (m := .push) rfl, fun s r hs hp h7 => ?_, fun s r h7 => ?_, fun s a ha => ?_⟩
  · refine ⟨_, execPush_index r h7, sub_one_toNat h7, fun p hadr => ?_, ⟨_, pushAddress_pos h7⟩,
      advance_toNat (pushed s _) hp (by decide), setReg_kept s .r7 _, rfl, rfl, rfl, rfl⟩
    obtain rfl := pushAddress_eq_ok hadr h7
    exact ⟨rfl, (read_pushed hs _).trans (getReg_setReg s .r7 r _), pushed_cellsKept hs _⟩
  · exact ⟨_, execPush_zero r h7, raise_stopped s (.outOfBounds (-1))⟩
  · exact ⟨_, execPush_above ha s, raise_stopped s (.invalidRegister a)⟩

/-! ### POP -/

/-- The state a POP into `r` leaves off the upper limit (rule R114). -/
def popped (r : Reg) (s : State) : State :=
  ((s.setReg r (s.mem.read (s.getReg .r7).toNat)).setReg .r7 (popPointer r s + 1)).advance 2

theorem execPop_popped {r : Reg} {s : State} (h : popPointer r s ≠ 0xFF) : execPop r.index s = .next (popped r s) :=
  execPop_index r h

/-- POP R7 checks and increments the byte it loaded (decision D11). -/
theorem popPointer_r7 (s : State) : popPointer .r7 s = s.mem.read (s.getReg .r7).toNat := by
  rw [popPointer_eq, if_pos rfl]

/-- A POP into another register checks and increments the stack pointer (rule R112). -/
theorem popPointer_of_ne {r : Reg} (hr : r ≠ .r7) (s : State) : popPointer r s = s.getReg .r7 := by
  rw [popPointer_eq, if_neg hr]

@[simp] theorem popped_mem (r : Reg) (s : State) : (popped r s).mem = s.mem := rfl

theorem popped_getReg_r7 (r : Reg) (s : State) : (popped r s).getReg .r7 = popPointer r s + 1 :=
  getReg_setReg_same _ .r7 _

theorem popped_getReg_dest {r : Reg} (hr : r ≠ .r7) (s : State) :
    (popped r s).getReg r = s.mem.read (s.getReg .r7).toNat :=
  (getReg_setReg_other _ _ hr).trans (getReg_setReg_same s r _)

theorem popped_regsKept (r : Reg) (s : State) : RegsKept [r, .r7] s (popped r s) := fun q hq => by
  obtain ⟨hqr, hq7⟩ : q ≠ r ∧ q ≠ .r7 := by simpa using hq
  exact (getReg_setReg_other _ _ hq7).trans (getReg_setReg_other s _ hqr)

theorem popped_pc_toNat (r : Reg) {s : State} (hp : s.pc.toNat ≤ 253) : (popped r s).pc.toNat = s.pc.toNat + 2 :=
  advance_toNat (State.setReg _ .r7 _) hp (by decide)

/-- What a POP never touches. -/
theorem popped_frame (r : Reg) (s : State) :
    CellsKept [] s (popped r s) ∧ (popped r s).fl = s.fl ∧ (popped r s).out = s.out ∧ StatusKept s (popped r s) :=
  ⟨fun _ _ => rfl, rfl, rfl, rfl, rfl⟩

/-- Settles O24: which byte POP checks against the limit, `popPointer`, is what R7 as the operand decides. -/
theorem popLoadsThenIncrements : Obligations.PopLoadsThenIncrements := by
  unfold Obligations.PopLoadsThenIncrements
  refine ⟨fun ext => decode_base ext (m := .pop) rfl, fun s r hr hp h7 => ?_, fun s hp hv => ?_, fun s r hr h7 => ?_,
    fun s hv => ?_, fun s a ha => ?_⟩
  · rw [← popPointer_of_ne hr s] at h7
    refine ⟨_, execPop_popped h7, popped_getReg_dest hr s, ?_, popped_pc_toNat r hp, popped_regsKept r s,
      popped_frame r s⟩
    rw [popped_getReg_r7, add_one_toNat h7, popPointer_of_ne hr]
  · rw [← popPointer_r7] at hv
    refine ⟨_, execPop_popped hv, ?_, popped_pc_toNat .r7 hp, fun q hq => popped_regsKept .r7 s q (by simpa using hq),
      popped_frame .r7 s⟩
    rw [popped_getReg_r7, add_one_toNat hv, popPointer_r7]
  · exact ⟨_, execPop_top r ((popPointer_of_ne hr s).trans h7), raise_stopped s (.outOfBounds 256)⟩
  · exact ⟨_, execPop_top .r7 ((popPointer_r7 s).trans hv), raise_stopped s (.outOfBounds 256)⟩
  · exact ⟨_, execPop_above ha s, raise_stopped s (.invalidRegister a)⟩

/-! ### The registers a cycle can change -/

/-- A write changes no register but its own (rule R12). -/
theorem eq_of_getReg_setReg_ne {s : State} {r r' : Reg} {v : Byte} (h : (s.setReg r v).getReg r' ≠ s.getReg r') :
    r' = r := by
  by_contra hr
  exact h (getReg_setReg_other s v hr)

/-- A POP changes its destination, and R7 by one upwards (rule R114). -/
theorem popped_getReg_changed {s : State} {r r' : Reg} (hlim : popPointer r s ≠ 0xFF)
    (h : (popped r s).getReg r' ≠ s.getReg r') :
    r' = r ∨ r' = .r7 ∧ ((popped r s).getReg .r7).toNat = (s.getReg .r7).toNat + 1 := by
  by_cases hr : r' = r
  · exact .inl hr
  · have h7 : r' = .r7 := by
      by_contra h7
      exact h (popped_regsKept r s r' (by simp [hr, h7]))
    have hdest : r ≠ .r7 := fun hd => hr (h7.trans hd.symm)
    exact .inr ⟨h7, by rw [popped_getReg_r7, add_one_toNat hlim, popPointer_of_ne hdest]⟩

/-- Settles O46: by the instruction's outcome; a condition, and every outcome without a register write, changes none. -/
theorem registersChangeOnlyAsNamed : Obligations.RegistersChangeOnlyAsNamed := by
  unfold Obligations.RegistersChangeOnlyAsNamed
  intro ext s t r h hne
  obtain ⟨i, hi, he⟩ | ⟨e, rfl⟩ := cycle_effect h
  · cases he with
    | ldi r' imm =>
      obtain rfl := eq_of_getReg_setReg_ne hne
      exact .inl ⟨imm, hi⟩
    | add ra rb =>
      obtain rfl := eq_of_getReg_setReg_ne hne
      exact .inr (.inl ⟨_, .inl hi⟩)
    | mul ra rb =>
      obtain rfl := eq_of_getReg_setReg_ne hne
      exact .inr (.inl ⟨_, .inr hi⟩)
    | pop r' hlim =>
      obtain rfl | ⟨h7, hinc⟩ := popped_getReg_changed hlim hne
      · exact .inr (.inr (.inl hi))
      · exact .inr (.inr (.inr (.inr ⟨h7, .inl ⟨_, hi⟩, hinc⟩)))
    | push r' h7 => exact .inr (.inr (.inr (.inl ⟨eq_of_getReg_setReg_ne hne, ⟨_, .inl hi⟩, sub_one_toNat h7⟩)))
    | call r' h7 => exact .inr (.inr (.inr (.inl ⟨eq_of_getReg_setReg_ne hne, ⟨_, .inr hi⟩, sub_one_toNat h7⟩)))
    | ret h7 => exact .inr (.inr (.inr (.inr ⟨eq_of_getReg_setReg_ne hne, .inr hi, add_one_toNat h7⟩)))
    | jeq | jne => split at hne <;> exact absurd rfl hne
    | _ => exact absurd rfl hne
  · exact absurd rfl hne

/-! ### PUSH and then POP -/

/-- The POP right after a PUSH is what the next cycle runs, if the push landed on neither of its two bytes (rule R115). -/
theorem runs_pop_pushed {ext : Bool} {s : State} {a : Byte} (hs : s.mem.wf) (hr : s.running = true)
    (hp : s.pc.toNat ≤ 251) (h2 : s.pc.toNat + 2 ≠ (s.getReg .r7 - 1).toNat)
    (h3 : s.pc.toNat + 3 ≠ (s.getReg .r7 - 1).toNat) (hop : s.mem.read (s.pc.toNat + 2) = 0x46)
    (harg : s.mem.read (s.pc.toNat + 3) = a) (v : Byte) :
    Runs (Config.build ext) ((pushed s v).advance 2) (.pop a) := by
  have hpc : ((pushed s v).advance 2).pc.toNat = s.pc.toNat + 2 :=
    advance_toNat (pushed s v) (hp.trans (by decide)) (by decide)
  refine ⟨hr, by omega, ?_⟩
  rw [hpc, advance_mem, pushed_cellsKept hs v _ (by simpa using h2), pushed_cellsKept hs v _ (by simpa using h3), hop, harg]
  exact decode_base ext (m := .pop) rfl _ _

/-- The pointer that a push has decremented is below the upper limit of a pop. -/
theorem sub_one_ne_top {b : Byte} (h : b ≠ 0) : b - 1 ≠ 0xFF := fun htop => by
  have hdec : (0xFF : Byte).toNat + 1 = b.toNat := htop ▸ sub_one_toNat h
  exact absurd b.isLt (by rw [← hdec]; decide)

/-- POP after PUSH puts the stack pointer back and changes its destination alone (rule R115). -/
theorem popped_pushed_regsKept {r : Reg} (hr : r ≠ .r7) (s : State) (v : Byte) :
    RegsKept [r] s (popped r ((pushed s v).advance 2)) := fun q hq => by
  by_cases h7 : q = .r7
  · subst h7
    rw [popped_getReg_r7, popPointer_of_ne hr, advance_getReg, pushed_getReg, getReg_setReg_same, BitVec.sub_add_cancel]
  · rw [popped_regsKept r _ q (by simp_all), advance_getReg, pushed_getReg, getReg_setReg_other s _ h7]

/-- PUSH of a register other than R7 pushes the value that the register holds (rule R113). -/
theorem execPush_of_ne {r : Reg} {s : State} (hr : r ≠ .r7) (h7 : s.getReg .r7 ≠ 0) :
    execPush r.index s = .next ((pushed s (s.getReg r)).advance 2) := by
  rw [execPush_index r h7, getReg_setReg_other s _ hr]

/-- Settles O50: the push leaves the POP's bytes, so the second cycle is that POP; it loads the byte pushed. -/
theorem pushThenPopRestores : Obligations.PushThenPopRestores := by
  unfold Obligations.PushThenPopRestores
  intro ext s r r' hs hr hr' h7 hp h2 h3 hpush hop harg
  have hdec := sub_one_toNat h7
  have hcell : (pushed s (s.getReg r)).mem.read (s.getReg .r7 - 1).toNat = s.getReg r := read_pushed hs _
  have hpop : Runs (Config.build ext) ((pushed s (s.getReg r)).advance 2) (.pop r'.index) :=
    runs_pop_pushed hs hpush.1 hp (by omega) (by omega) hop harg _
  have hlim : popPointer r' ((pushed s (s.getReg r)).advance 2) ≠ 0xFF := by
    rw [popPointer_of_ne hr']
    exact sub_one_ne_top h7
  have hkept := popped_pushed_regsKept hr' s (s.getReg r)
  refine ⟨_, _, hpush.cycle_eq.trans (execPush_of_ne hr h7), hpop.cycle_eq.trans (execPop_popped hlim),
    (popped_getReg_dest hr' _).trans hcell, hkept .r7 (by simpa using hr'.symm), ?_, hkept, ?_⟩
  · rw [popped_pc_toNat r' hpop.2.1, advance_toNat (pushed s _) (hp.trans (by decide)) (by decide), pushed_pc]
  · rw [← hdec, Nat.add_sub_cancel]
    exact hcell

end Sys2Proof.Machine
end

section
/-! PROOF. The control-flow family: the stack transfers CALL and RET and their round trip, the jumps JMP, JEQ and JNE, and the jump
to itself (rules R120 to R127). -/

namespace Sys2Proof.Machine

/-! ### CALL, RET -/

/-- Settles O25: off the limit CALL is one `pushed` and a redirect to the value its register has after the decrement. -/
theorem callPushesReturnAddressAndJumps : Obligations.CallPushesReturnAddressAndJumps := by
  unfold Obligations.CallPushesReturnAddressAndJumps
  refine ⟨fun ext => decode_base ext (m := .call) rfl, fun s r hs hp h7 => ?_, fun s r h7 => ?_, fun s a ha => ?_⟩
  · refine ⟨_, execCall_index r h7, sub_one_toNat h7, fun p hadr => ?_, ⟨_, pushAddress_pos h7⟩, ?_,
      setReg_kept s .r7 _, rfl, rfl, rfl, rfl⟩
    · obtain rfl := pushAddress_eq_ok hadr h7
      exact ⟨rfl, (congrArg BitVec.toNat (read_pushed hs _)).trans (returnAddress_toNat hp), pushed_cellsKept hs _⟩
    · rw [redirect_toNat, redirect_getReg, pushed_getReg, getReg_setReg_same, getReg_setReg]
  · exact ⟨_, execCall_zero r h7, raise_stopped s (.outOfBounds (-1))⟩
  · exact ⟨_, execCall_above ha s, raise_stopped s (.invalidRegister a)⟩

/-- Settles O26: off the limit RET is one increment of R7 and a redirect to the byte that R7 pointed at. -/
theorem retPopsTheProgramCounter : Obligations.RetPopsTheProgramCounter := by
  unfold Obligations.RetPopsTheProgramCounter
  refine ⟨fun ext => decode_base ext (m := .ret) rfl, fun s h7 => ?_, fun s h7 => ?_⟩
  · exact ⟨_, execRet_below h7, redirect_toNat (s.setReg .r7 _) _, add_one_toNat h7, setReg_kept s .r7 _,
      fun _ _ => rfl, rfl, rfl, rfl, rfl⟩
  · exact ⟨_, execRet_top h7, raise_stopped s (.outOfBounds 256)⟩

/-- What a CALL of a register leaves on the stack: R7 decremented, and the return address at it (rule R120). -/
theorem Runs.call_leaves {c : Config} {s t : State} {r : Reg} (hrun : Runs c s (.call r.index)) (hs : s.mem.wf)
    (h7 : s.getReg .r7 ≠ 0) (h : cycle c s = .next t) :
    t.getReg .r7 = s.getReg .r7 - 1 ∧ t.mem.read (t.getReg .r7).toNat = returnAddress s := by
  have ht := (hrun.cycle_eq.trans (execCall_index r h7)).symm.trans h
  injection ht with ht
  subst ht
  exact ⟨getReg_setReg_same s .r7 _, read_pushed hs _⟩

/-- Settles O51: the decremented pointer is below RET's limit, and RET undoes the decrement and goes to the stored byte. -/
theorem callThenReturnResumes : Obligations.CallThenReturnResumes := by
  unfold Obligations.CallThenReturnResumes
  intro ext s t u r hs h7 hcall ht hret hsp hcell
  obtain ⟨htsp, htcell⟩ := hcall.call_leaves hs h7 ht
  have husp : u.getReg .r7 = s.getReg .r7 - 1 := hsp.trans htsp
  have hlim : u.getReg .r7 ≠ 0xFF := husp ▸ sub_one_ne_top h7
  refine ⟨_, hret.cycle_eq.trans (execRet_below hlim), ?_, ?_⟩
  · rw [redirect_toNat, hcell, htcell, returnAddress_toNat hcall.2.1]
  · rw [redirect_getReg, getReg_setReg_same, husp, BitVec.sub_add_cancel]

/-! ### JMP, JEQ, JNE -/

/-- The state that a jump on `r` leaves, taken or not (rules R122 to R124). -/
def jumped (taken : Bool) (r : Reg) (s : State) : State := if taken then s.redirect (s.getReg r) else s.advance 2

theorem finish_jumpIf_index (taken : Bool) (r : Reg) (s : State) :
    finish s (jumpIf taken r.index s) = .next (jumped taken r s) := by
  rw [jumpIf_index, finish_ok, jumped]

theorem finish_jumpIf_above (taken : Bool) {a : Byte} (h : 7 < a.toNat) (s : State) :
    finish s (jumpIf taken a s) = .next (s.raise (.invalidRegister a)) := by
  rw [jumpIf_above taken h, finish_error]

/-- A jump that is taken goes to the register's value (rule R125). -/
theorem jumped_pc_of_taken {taken : Bool} (h : taken = true) (r : Reg) (s : State) :
    (jumped taken r s).pc.toNat = (s.getReg r).toNat := by
  subst h
  exact redirect_toNat s (s.getReg r)

/-- A jump that is not taken falls through to the next instruction (decision D13). -/
theorem jumped_pc_of_not_taken {taken : Bool} (h : taken = false) (r : Reg) {s : State} (hp : s.pc.toNat ≤ 253) :
    (jumped taken r s).pc.toNat = s.pc.toNat + 2 := by
  subst h
  exact advance_toNat s hp (by decide)

/-- A jump, taken or not, changes `pc` alone. -/
theorem jumped_frame (taken : Bool) (r : Reg) (s : State) :
    RegsKept [] s (jumped taken r s) ∧ CellsKept [] s (jumped taken r s) ∧ (jumped taken r s).fl = s.fl ∧
      (jumped taken r s).out = s.out ∧ StatusKept s (jumped taken r s) := by
  cases taken <;> exact ⟨fun _ _ => rfl, fun _ _ => rfl, rfl, rfl, rfl, rfl⟩

/-- Settles O27: JMP is the jump that is always taken. -/
theorem jmpRedirectsAlways : Obligations.JmpRedirectsAlways := by
  unfold Obligations.JmpRedirectsAlways
  refine ⟨fun a b => ⟨decode_ext .jmp a b, decode_error_of_mem_extension (by decide) a b⟩, fun s r => ?_, fun s a ha => ?_⟩
  · exact ⟨_, finish_jumpIf_index true r s, jumped_pc_of_taken rfl r s, jumped_frame true r s⟩
  · exact ⟨_, finish_jumpIf_above true ha s, raise_stopped s (.invalidRegister a)⟩

/-- Settles O28: JEQ is the jump that E decides. -/
theorem jeqRedirectsWhenEqual : Obligations.JeqRedirectsWhenEqual := by
  unfold Obligations.JeqRedirectsWhenEqual
  refine ⟨fun a b => ⟨decode_ext .jeq a b, decode_error_of_mem_extension (by decide) a b⟩, fun s r hp => ?_,
    fun s a ha => ?_⟩
  · exact ⟨_, finish_jumpIf_index s.flE r s, fun hE => jumped_pc_of_taken hE r s,
      fun hE => jumped_pc_of_not_taken hE r hp, jumped_frame s.flE r s⟩
  · exact ⟨_, finish_jumpIf_above s.flE ha s, raise_stopped s (.invalidRegister a)⟩

/-- Settles O29: JNE is the jump that the complement of E decides. -/
theorem jneRedirectsWhenNotEqual : Obligations.JneRedirectsWhenNotEqual := by
  unfold Obligations.JneRedirectsWhenNotEqual
  refine ⟨fun a b => ⟨decode_ext .jne a b, decode_error_of_mem_extension (by decide) a b⟩, fun s r hp => ?_,
    fun s a ha => ?_⟩
  · exact ⟨_, finish_jumpIf_index (!s.flE) r s, fun hE => jumped_pc_of_taken (congrArg not hE) r s,
      fun hE => jumped_pc_of_not_taken (congrArg not hE) r hp, jumped_frame (!s.flE) r s⟩
  · exact ⟨_, finish_jumpIf_above (!s.flE) ha s, raise_stopped s (.invalidRegister a)⟩

/-- Settles O52: by E, which decides JEQ as its complement decides JNE. -/
theorem equalJumpsAreComplements : Obligations.EqualJumpsAreComplements := by
  unfold Obligations.EqualJumpsAreComplements
  intro s r hp
  refine ⟨_, _, finish_jumpIf_index s.flE r s, finish_jumpIf_index (!s.flE) r s, ?_⟩
  cases s.flE with
  | true => exact .inl ⟨jumped_pc_of_taken rfl r s, jumped_pc_of_not_taken rfl r hp⟩
  | false => exact .inr ⟨jumped_pc_of_not_taken rfl r hp, jumped_pc_of_taken rfl r s⟩

/-! ### The jump to itself -/

/-- A redirect to where `pc` is changes nothing. -/
theorem redirect_eq_self {s : State} {v : Byte} (h : v.toNat = s.pc.toNat) : s.redirect v = s := by
  have hpc : (s.redirect v).pc = s.pc := BitVec.eq_of_toNat_eq ((redirect_toNat s v).trans h)
  rw [redirect_pc] at hpc
  rw [State.redirect, hpc]

/-- A state that is its own next state is the state after any number of cycles (rule R78). -/
theorem run_eq_self_of_cycle {c : Config} {s : State} (h : cycle c s = .next s) (k : Nat) : run c k s = .next s := by
  induction k with
  | zero => rfl
  | succ k ih => rw [run_succ_of_cycle h, ih]

/-- Settles O53: the jump's redirect leaves the state as it is, so each cycle leads back to it. -/
theorem jumpToItselfNeverHalts : Obligations.JumpToItselfNeverHalts := by
  unfold Obligations.JumpToItselfNeverHalts
  intro k s r hrun hself
  have hjump : exec (.jmp r.index) s = .next (s.redirect (s.getReg r)) := finish_jumpIf_index true r s
  exact run_eq_self_of_cycle (hrun.cycle_eq.trans (by rw [hjump, redirect_eq_self hself])) k

end Sys2Proof.Machine
end

section
/-! PROOF. The conditions: which of them a cycle raises, in their order, and how the halt record tells it; then the host's
read-back of the status and of the trace sample (rules R131 to R137, R147). -/

namespace Sys2Proof.Machine

/-! ### The condition of a cycle -/

/-- The cycle of build `c` from `s` raises this condition: the rows of rule R137, each with the checks before it passed. -/
inductive Raises (c : Config) (s : State) : Condition → Prop where
  /-- The fetch passes the end of Memory (rule R72). -/
  | fetch (n : Int) : 254 ≤ s.pc.toNat → fetch s = .error (.outOfBounds n) → Raises c s (.outOfBounds n)
  /-- The fetched opcode byte has no handler (rule R77). -/
  | opcode : s.pc.toNat ≤ 253 → dispatch c (s.mem.read s.pc.toNat) = none →
      Raises c s (.unknownOpcode (s.mem.read s.pc.toNat))
  /-- The first register operand above 7 (rule R133). -/
  | index (i : Instr) (a : Byte) : Runs c s i → (registerOperands i).find? (fun x => 7 < x.toNat) = some a →
      Raises c s (.invalidRegister a)
  /-- The lower stack limit (rule R111). -/
  | push (r : Reg) : Runs c s (.push r.index) ∨ Runs c s (.call r.index) → s.getReg .r7 = 0 →
      Raises c s (.outOfBounds (-1))
  /-- The upper stack limit in POP (rule R114, decision D11). -/
  | pop (r : Reg) : Runs c s (.pop r.index) → popPointer r s = 0xFF → Raises c s (.outOfBounds 256)
  /-- The upper stack limit in RET (rule R121). -/
  | ret : Runs c s .ret → s.getReg .r7 = 0xFF → Raises c s (.outOfBounds 256)

/-- A cycle takes the condition that it raises (rule R135). -/
theorem Raises.cycle_eq {c : Config} {s : State} {e : Condition} (h : Raises c s e) (hr : s.running = true) :
    cycle c s = .next (s.raise e) := by
  cases h with
  | fetch n hp hf => exact cycle_fetch_error c hr hf
  | opcode hp hd => exact cycle_reject hr (fetch_ok hp) hd
  | index i a hi ha =>
    obtain ⟨t, ht, he⟩ := exec_effect i s
    rw [hi.cycle_eq, ht, he.of_badIndex ha]
  | push r hi h7 =>
    obtain hi | hi := hi
    · exact hi.cycle_eq.trans (execPush_zero r h7)
    · exact hi.cycle_eq.trans (execCall_zero r h7)
  | pop r hi hlim => exact hi.cycle_eq.trans (execPop_top r hlim)
  | ret hi h7 => exact hi.cycle_eq.trans (execRet_top h7)

/-- A cycle that raises a condition stops with its cause and value. -/
theorem Raises.stops {c : Config} {s : State} {e : Condition} (h : Raises c s e) (hr : s.running = true) :
    ∃ t, cycle c s = .next t ∧ StoppedAs s t e.cause e.info :=
  ⟨_, h.cycle_eq hr, raise_stopped s e⟩

/-- What a handler does to the machine status: nothing, HLT's halt, or a condition that the cycle raises. -/
theorem Effect.status_cases {c : Config} {s t : State} {i : Instr} (hi : Runs c s i) (h : Effect s i t) :
    StatusKept s t ∨ (Runs c s .hlt ∧ t = s.haltWith .hlt 0) ∨ ∃ e, Raises c s e ∧ t = s.raise e := by
  cases h with
  | hlt => exact .inr (.inl ⟨hi, rfl⟩)
  | badIndex i a ha => exact .inr (.inr ⟨_, .index i a hi ha, rfl⟩)
  | pushLimit r h7 => exact .inr (.inr ⟨_, .push r (.inl hi) h7, rfl⟩)
  | callLimit r h7 => exact .inr (.inr ⟨_, .push r (.inr hi) h7, rfl⟩)
  | popLimit r hlim => exact .inr (.inr ⟨_, .pop r hi hlim, rfl⟩)
  | retLimit h7 => exact .inr (.inr ⟨_, .ret hi h7, rfl⟩)
  | jeq | jne => left; split <;> exact ⟨rfl, rfl⟩
  | _ => exact .inl ⟨rfl, rfl⟩

/-- What a cycle does to the machine status: nothing, HLT's halt, or a condition that it raises. -/
theorem cycle_status_cases {c : Config} {s t : State} (h : cycle c s = .next t) :
    StatusKept s t ∨ (Runs c s .hlt ∧ t = s.haltWith .hlt 0) ∨ ∃ e, Raises c s e ∧ t = s.raise e := by
  obtain ⟨hr, ⟨hp, e, hf, rfl⟩ | ⟨hp, hd, rfl⟩ | ⟨hp, i, hd, hx⟩⟩ := cycle_cases h
  · obtain ⟨n, hn⟩ := fetch_outOfBounds hp
    obtain rfl := Except.error.inj (hf.symm.trans hn)
    exact .inr (.inr ⟨_, .fetch n hp hf, rfl⟩)
  · exact .inr (.inr ⟨_, .opcode hp hd, rfl⟩)
  · exact (exec_cases hx).status_cases ⟨hr, hp, hd⟩

/-- A cycle halts with a cause other than HLT exactly when it raises a condition of that cause. -/
theorem haltedBy_iff_raises {c : Config} {s t : State} {k : Cause} (hk : k ≠ .hlt) (hnone : s.halt = none)
    (h : cycle c s = .next t) : HaltedBy t k ↔ ∃ e, Raises c s e ∧ e.cause = k := by
  constructor
  · intro hh
    obtain ⟨-, hhalt⟩ | ⟨-, rfl⟩ | ⟨e, he, rfl⟩ := cycle_status_cases h
    · obtain ⟨r, hr, -⟩ := hh
      rw [hhalt, hnone] at hr
      cases hr
    · obtain ⟨r, hr, rfl⟩ := hh
      obtain rfl := Option.some.inj hr
      exact absurd rfl hk
    · exact ⟨e, he, (raise_haltedBy s e k).1 hh⟩
  · rintro ⟨e, he, hek⟩
    have ht := (he.cycle_eq (cycle_cases h).1).symm.trans h
    injection ht with ht
    exact ht ▸ (raise_haltedBy s e k).2 hek

/-! ### The order of the conditions -/

/-- Settles O38: each clause is a row of `Raises`, which asks nothing of the later ones. -/
theorem conditionsComeInOrder : Obligations.ConditionsComeInOrder := by
  unfold Obligations.ConditionsComeInOrder
  intro ext s hr hpc
  refine ⟨fun hp => ?_, fun hp hd => ?_, fun i a rest hi hops ha => ?_, fun i a b hi hops ha hb => ?_,
    fun r hi h7 => ?_, fun r hi hlim => ?_, fun hi h7 => ?_⟩
  · exact Raises.stops (.fetch 256 hp (fetch_end hp hpc)) hr
  · exact Raises.stops (.opcode hp hd) hr
  · exact Raises.stops (.index i a hi (badIndex_one hops ha)) hr
  · obtain ⟨r, rfl⟩ := (index_cases a).resolve_right (by omega)
    exact Raises.stops (.index i b hi (badIndex_two hops hb)) hr
  · exact Raises.stops (.push r hi h7) hr
  · exact Raises.stops (.pop r hi ((popPointer_eq r s).trans hlim)) hr
  · exact Raises.stops (.ret hi h7) hr

/-! ### One cause -/

/-- Settles O39: the situations are the rows of `Raises` with an address. -/
theorem outOfBoundsExactlyInItsSituations : Obligations.OutOfBoundsExactlyInItsSituations := by
  unfold Obligations.OutOfBoundsExactlyInItsSituations
  intro ext s t hnone h
  rw [haltedBy_iff_raises Cause.noConfusion hnone h]
  constructor
  · rintro ⟨e, he, hk⟩
    cases he with
    | fetch n hp hf => exact .inl hp
    | push r hi h7 => exact .inr (.inl ⟨r, hi, h7⟩)
    | pop r hi hlim => exact .inr (.inr (.inl ⟨r, hi, (popPointer_eq r s).symm.trans hlim⟩))
    | ret hi h7 => exact .inr (.inr (.inr ⟨hi, h7⟩))
    | opcode | index => cases hk
  · rintro (hp | ⟨r, hi, h7⟩ | ⟨r, hi, hlim⟩ | ⟨hi, h7⟩)
    · obtain ⟨n, hf⟩ := fetch_outOfBounds hp
      exact ⟨_, .fetch n hp hf, rfl⟩
    · exact ⟨_, .push r hi h7, rfl⟩
    · exact ⟨_, .pop r hi ((popPointer_eq r s).trans hlim), rfl⟩
    · exact ⟨_, .ret hi h7, rfl⟩

/-- There is a bad index exactly when there is a first one. -/
theorem exists_badIndex_iff (i : Instr) : (∃ a ∈ registerOperands i, 7 < a.toNat) ↔
    ∃ a, (registerOperands i).find? (fun x => 7 < x.toNat) = some a := by
  rw [← Option.isSome_iff_exists, List.find?_isSome]
  simp only [decide_eq_true_eq]

/-- Settles O40: the only row of `Raises` with this cause is the first bad index, which decides the cycle. -/
theorem invalidRegisterExactlyOnBadIndex : Obligations.InvalidRegisterExactlyOnBadIndex := by
  unfold Obligations.InvalidRegisterExactlyOnBadIndex
  intro ext s t hnone h
  constructor
  · rw [haltedBy_iff_raises Cause.noConfusion hnone h]
    constructor
    · rintro ⟨e, he, hk⟩
      cases he with
      | index i a hi ha => exact ⟨i, hi, (exists_badIndex_iff i).2 ⟨a, ha⟩⟩
      | _ => cases hk
    · rintro ⟨i, hi, hbad⟩
      obtain ⟨a, ha⟩ := (exists_badIndex_iff i).1 hbad
      exact ⟨_, .index i a hi ha, rfl⟩
  · intro i a hi ha
    have ht := (Raises.cycle_eq (.index i a hi ha) hi.1).symm.trans h
    injection ht with ht
    exact ht ▸ raise_stopped s (.invalidRegister a)

/-! ### The halt record -/

/-- What the halt record's cause and info tell of the cycle that started in `s` (rule R131). -/
def CauseTells (ext : Bool) (s : State) (k : Cause) (n : Int) : Prop :=
  match k with
  | .hlt => n = 0 ∧ fetchedOpcode s = some 0x01
  | .unknownOpcode => ∃ ir : Byte, fetchedOpcode s = some ir ∧ n = ir.toNat ∧ dispatch (Config.build ext) ir = none
  | .outOfBounds => n = 256 ∨ n = -1
  | .invalidRegister => 8 ≤ n ∧ n ≤ 255 ∧ fetchedOpcode s ≠ none
  | .unsupportedOperation => False

theorem Raises.causeTells {ext : Bool} {s : State} {e : Condition} (hpc : s.pc.toNat ≤ 256)
    (h : Raises (Config.build ext) s e) : CauseTells ext s e.cause e.info := by
  cases h with
  | fetch n hp hf =>
    rw [fetch_end hp hpc] at hf
    cases hf
    exact .inl rfl
  | opcode hp hd => exact ⟨_, fetchedOpcode_in (by omega), rfl, hd⟩
  | index i a hi ha =>
    have hp := hi.2.1
    have habove : 7 < a.toNat := by simpa using List.find?_some ha
    have hir : fetchedOpcode s ≠ none := by
      rw [fetchedOpcode_in (by omega)]
      exact Option.some_ne_none _
    exact ⟨Int.ofNat_le.2 habove, Int.ofNat_le.2 (Nat.le_of_lt_succ a.isLt), hir⟩
  | push => exact .inr rfl
  | pop | ret => exact .inl rfl

theorem Runs.hlt_causeTells {ext : Bool} {s : State} (h : Runs (Config.build ext) s .hlt) : CauseTells ext s .hlt 0 := by
  have hp := h.2.1
  exact ⟨rfl, by rw [fetchedOpcode_in (by omega), h.hlt_opcode]⟩

/-- Settles O37: a cycle keeps the status, or it halts by HLT or by the condition it raises. -/
theorem haltsArePreciseAndRecorded : Obligations.HaltsArePreciseAndRecorded := by
  unfold Obligations.HaltsArePreciseAndRecorded
  intro ext s t hnone hpc h
  obtain ⟨hrun, hhalt⟩ | ⟨hi, rfl⟩ | ⟨e, he, rfl⟩ := cycle_status_cases h
  · refine ⟨fun _ => hhalt.trans hnone, fun hstop => ?_⟩
    rw [hrun, (cycle_cases h).1] at hstop
    cases hstop
  · exact ⟨fun hrun => absurd hrun Bool.false_ne_true, fun _ => ⟨_, _, haltWith_stopped s .hlt 0, hi.hlt_causeTells⟩⟩
  · exact ⟨fun hrun => absurd hrun Bool.false_ne_true, fun _ => ⟨_, _, raise_stopped s e, he.causeTells hpc⟩⟩

/-! ### The host's read-back -/

/-- The trace observer sees the cells of Memory (rule R147). -/
theorem cellAt_in (s : State) {a : Nat} (h : a < 256) : cellAt s a = some (s.mem.read a) :=
  if_pos h

/-- Settles O58: the fetch reads the same three cells, all of them in Memory. -/
theorem traceSamplesTheNextFetch : Obligations.TraceSamplesTheNextFetch := by
  unfold Obligations.TraceSamplesTheNextFetch
  intro s hp
  refine ⟨_, fetch_ok hp, ?_⟩
  rw [traceSample, cellAt_in s (by omega), cellAt_in s (by omega), cellAt_in s (by omega)]

/-- The status code is that of the recorded cause (rule R131). -/
theorem statusCode_eq (s : State) : statusCode s = causeCode (s.halt.map HaltRecord.cause) := rfl

/-- Settles O59: `causeCode` on no record and on each of the five causes. -/
theorem statusCodesFollowTheTable : Obligations.StatusCodesFollowTheTable := by
  unfold Obligations.StatusCodesFollowTheTable
  constructor
  · intro s hnone
    rw [statusCode_eq, hnone]
    rfl
  · intro s h hhalt
    rw [statusCode_eq, hhalt, Option.map_some]
    cases h.cause <;> rfl

end Sys2Proof.Machine
end

section
/-! PROOF. The launch state of a program (rule R153). -/

namespace Sys2Proof.Machine

/-- After a load from address 0 into the reset Memory, a cell reads its byte of the program, or 0x00 beyond the program. -/
theorem read_load_nil {p : List Byte} (hp : p.length ≤ 256) (k : Nat) :
    (Memory.load [] 0 p).read k = p[k]?.getD 0x00 := by
  rw [load_read p [] 0 wf_nil (by omega), if_pos (Nat.zero_le k), Nat.sub_zero, read_nil]
  cases p[k]? <;> rfl

/-- Settles O3: the launch state is the reset state with the program loaded, and a load says what each cell reads. -/
theorem launchWritesProgramFromZero : Obligations.LaunchWritesProgramFromZero := by
  unfold Obligations.LaunchWritesProgramFromZero
  intro ext p
  constructor
  · intro hp
    have hfits : (Config.build ext).loadBase + p.length ≤ (Config.build ext).memSize := by simpa using hp
    refine ⟨_, launchIn_fits hfits, fun k v hv => ?_, fun k hk => ?_, rfl, rfl, rfl, rfl, rfl, rfl⟩
    · exact (read_load_nil hp k).trans (by rw [hv, Option.getD_some])
    · exact (read_load_nil hp k).trans (by rw [List.getElem?_eq_none hk, Option.getD_none])
  · intro hp
    exact launchIn_too_long (by simpa using hp)

end Sys2Proof.Machine
end
